-- ==== Sys2Proof/Word.lean ====
section
/-! DEFINITION. The words of the SHA-1 compression engine: the spec's value types, by width (R6, R8). -/

namespace Sys2Proof

/-- A byte of the message, the block buffer or the digest: the spec's `Byte` (R8). -/
abbrev Byte := BitVec 8

/-- A chaining word, working register or schedule word: the spec's `Word32`, unsigned (R6, R8).  `+` on it is modulo 2^32 (R160). -/
abbrev Word := BitVec 32

/-- The bit-length counter's `Word64`, unsigned; `+` on it is modulo 2^64 (R9, R22). -/
abbrev Word64 := BitVec 64

/-- One 40-bit command word `CMD[39:0]` (R70). -/
abbrev CmdWord := BitVec 40

/-- The 160-bit DATA field of a response (R71). -/
abbrev RspData := BitVec 160

end Sys2Proof
end

