-- ==== Sys2Proof/Syntax.lean ====
section
/-! DEFINITION. The six commands of the opcode table (R72) with their operands, as the decoder hands them to the machine. -/

namespace Sys2Proof

/-- The message-schedule expansion rule in force (R2, R27): VAR = 0 is SHA-1 (rotated), VAR = 1 is SHA-0 (non-rotated). -/
inductive Variant where
  | sha1
  | sha0
deriving DecidableEq, Repr

/-- One constructor per row of the opcode table.  The DATA bits a command ignores (R76) are no part of it. -/
inductive Instr where
  /-- `NOP`: no operation (R103). -/
  | nop
  /-- `INIT v`: reset the engine and select the variant (R104). -/
  | init (v : Variant)
  /-- `UPD b0, …`: absorb the message bytes, in this order (R105); a command word carries 1 to 4 of them (R73).  Log entries 9, 10. -/
  | upd (bytes : List Byte)
  /-- `UPDZ`: the zero-length update (R106). -/
  | updz
  /-- `FINAL`: pad, compress the final block(s) and return the digest (R107). -/
  | final
  /-- `STAT`: read the status word (R108). -/
  | stat
deriving DecidableEq, Repr

end Sys2Proof
end

