-- ==== Sys2Proof/Machine/Operands.lean ====
section
/-! DEFINITION. The fields of a command word, the operands they give, and every byte-to-word conversion of the engine.
All of them are big-endian and there is no other byte order (R57). -/

namespace Sys2Proof.Machine

/-! ### Fields of the command word (R70) -/

/-- OP = CMD[39:36]. -/
def cmdOp (w : CmdWord) : BitVec 4 := w.extractLsb' 36 4

/-- Z = CMD[35:34], reserved. -/
def cmdZ (w : CmdWord) : BitVec 2 := w.extractLsb' 34 2

/-- N = CMD[33:32]: for UPD the byte count minus one. -/
def cmdN (w : CmdWord) : BitVec 2 := w.extractLsb' 32 2

/-- DATA = CMD[31:0]. -/
def cmdData (w : CmdWord) : BitVec 32 := w.extractLsb' 0 32

/-- The command word with Z = 0 and the other three fields as given (R70). -/
def cmdWord (op : BitVec 4) (n : BitVec 2) (data : BitVec 32) : CmdWord := op ++ 0#2 ++ n ++ data

/-! ### Operands -/

/-- Message byte k of the command data, `DATA[31-8k : 24-8k]` for k = 0..3 (R56, R74). -/
def dataByte (data : BitVec 32) (k : Nat) : Byte := data.extractLsb' (24 - 8 * k) 8

/-- The message bytes of UPD in the order they are absorbed: the first N + 1 bytes of DATA (R73, R74). -/
def msgBytes (n : BitVec 2) (data : BitVec 32) : List Byte := (List.range (n.toNat + 1)).map (dataByte data)

/-- The variant operand of INIT: DATA[0], 0 = SHA-1 and 1 = SHA-0 (R75). -/
def variantOperand (data : BitVec 32) : Variant := if data.extractLsb' 0 1 = 0#1 then .sha1 else .sha0

/-- The DATA field that carries the bytes of UPD, absent bytes written 00 (R83). -/
def packBytes (bytes : List Byte) : BitVec 32 := bytes.getD 0 0 ++ bytes.getD 1 0 ++ bytes.getD 2 0 ++ bytes.getD 3 0

/-- The variant bit VAR (R27), which is also INIT's DATA[0] (R75). -/
def variantBit : Variant → BitVec 1
  | .sha1 => 0#1
  | .sha0 => 1#1

/-! ### Byte order -/

/-- Four bytes as a word, the first of them in bits 31:24 (R53). -/
def beWord (b0 b1 b2 b3 : Byte) : Word := b0 ++ b1 ++ b2 ++ b3

/-- The number a byte string spells, its first byte the most significant (R10). -/
def beNat (bytes : List Byte) : Nat := bytes.foldl (fun acc b => acc * 256 + b.toNat) 0

/-- The low `n` bytes of `v`, the most significant first: byte k is `v[8*(n-1-k)+7 : 8*(n-1-k)]` (R10). -/
def beBytes (n : Nat) {w : Nat} (v : BitVec w) : List Byte :=
  (List.range n).map fun k => v.extractLsb' (8 * (n - 1 - k)) 8

end Sys2Proof.Machine
end

