-- ==== Sys2Proof/WellFormed.lean ====
section
/-! DEFINITION. Which terms of `Instr` are commands the 40-bit word can carry. -/

namespace Sys2Proof

/-- UPD carries `n = N + 1` bytes, an integer 1..4 (R73); every other command is well formed whatever its operand. -/
def Instr.wellFormed : Instr → Bool
  | .nop => true
  | .init _ => true
  | .upd bytes => decide (1 ≤ bytes.length) && decide (bytes.length ≤ 4)
  | .updz => true
  | .final => true
  | .stat => true

end Sys2Proof
end

