-- ==== Sys2Proof/Decode.lean ====
section
/-! DEFINITION. The decoder, total on all 2^40 command words (R81), and the encoder written from the same table (R70, R72, R83). -/

namespace Sys2Proof

open Sys2Proof.Machine

/-- Why a command word is ILLEGAL.  The engine raises EILL for each of them alike and records no other value (R202); the
names are the model's own (log entry 8). -/
inductive Illegal where
  /-- Z != 0 (R78). -/
  | reservedField
  /-- OP = 0x6 .. 0xF (R77). -/
  | reservedOpcode
  /-- N != 0 with an OP other than UPD (R79). -/
  | countField
deriving DecidableEq, Repr

/-- `decode(CMD)` of R81, in the rule's own order of tests. -/
def decode (w : CmdWord) : Except Illegal Instr :=
  if cmdZ w ≠ 0#2 then .error .reservedField
  else if cmdOp w = 0x2#4 then .ok (.upd (msgBytes (cmdN w) (cmdData w)))
  else if 0x6#4 ≤ cmdOp w then .error .reservedOpcode
  else if cmdN w ≠ 0#2 then .error .countField
  else if cmdOp w = 0x0#4 then .ok .nop
  else if cmdOp w = 0x1#4 then .ok (.init (variantOperand (cmdData w)))
  else if cmdOp w = 0x3#4 then .ok .updz
  else if cmdOp w = 0x4#4 then .ok .final
  else .ok .stat

/-- The command word of a well-formed instruction, with 0 in every ignored DATA bit (R83). -/
def encode : Instr → CmdWord
  | .nop => cmdWord 0x0#4 0#2 0#32
  | .init v => cmdWord 0x1#4 0#2 ((variantBit v).setWidth 32)
  | .upd bytes => cmdWord 0x2#4 (BitVec.ofNat 2 (bytes.length - 1)) (packBytes bytes)
  | .updz => cmdWord 0x3#4 0#2 0#32
  | .final => cmdWord 0x4#4 0#2 0#32
  | .stat => cmdWord 0x5#4 0#2 0#32

/-- The command word whose low `nbits` bits are `w` and whose other bits are 0. -/
def tableWord (nbits w : Nat) : CmdWord := BitVec.ofNat 40 (w % 2 ^ nbits)

/-- What the decoder reads from a word numbered as the opcode table numbers it.  A command is one word of 40 bits (R60, R82), so a
longer one is no command (log entry 11). -/
def decodeTableWord (nbits w : Nat) : Option Instr :=
  if nbits ≤ 40 then (decode (tableWord nbits w)).toOption else none

end Sys2Proof
end

