-- ==== Sys2Proof/Config.lean ====
section
/-! DEFINITION. The free values: what the spec leaves unspecified after an event from which the machine goes on.
Each is a constant with no body, so that nothing can be proved of any value it gives.
The fixed parameters of R6 are the widths of Word.lean and the literals of the rules that use them.
The open parameter T_CMD (R7) has no constant here, because the model is untimed (R229) and no rule depends on it. -/

namespace Sys2Proof.Config

/-- The byte that the block buffer holds at an offset whose content is stale (R23): `staleByte n a` for offset `a` while
`n` is the buffer's epoch (`State.bufEpoch`).  Log entry 1. -/
opaque staleByte : Nat → Nat → Byte

/-- A word left in the round pipeline when no compression is running (R31, R32): `freeWord n j` for draw `n`, with `j` = 0..4 for
the working registers a..e and `j` = 5..84 for the schedule words W[0..79].  Log entry 3. -/
opaque freeWord : Nat → Nat → Word

/-- The value left in the step counter t when no compression is running (R32), for draw `n`.  Log entry 3. -/
opaque freeStep : Nat → Fin 80

/-- What RSP_STATUS holds once its response is gone (R28), for draw `n`.  Log entry 4. -/
opaque freeStatus : Nat → BitVec 2

/-- What RSP_DATA holds once its response is gone (R28), for draw `n`.  Log entry 4. -/
opaque freeData : Nat → RspData

end Sys2Proof.Config
end

