-- ==== Sys2Proof/Machine/Datapath.lean ====
section
/-! DEFINITION. The compression engine: the 32-bit datapath, the message-schedule expander and the round pipeline
(`42_compression.md`, R160 to R175). -/

namespace Sys2Proof.Machine

/-- The chaining-state register file H0..H4 (R20). -/
structure Chain where
  h0 : Word
  h1 : Word
  h2 : Word
  h3 : Word
  h4 : Word
deriving DecidableEq, Repr

/-- The working registers a, b, c, d, e of the round pipeline (R31). -/
structure Working where
  a : Word
  b : Word
  c : Word
  d : Word
  e : Word
deriving DecidableEq, Repr

/-- One 64-byte block `blk[0..63]` (R163). -/
abbrev Block := Vector Byte 64

/-- The initial chaining value, the same for both variants (R21). -/
def initialChain : Chain where
  h0 := 0x67452301
  h1 := 0xEFCDAB89
  h2 := 0x98BADCFE
  h3 := 0x10325476
  h4 := 0xC3D2E1F0

/-! ### The 32-bit datapath -/

/-- `ROTL(x, n)` for `0 < n < 32` (R9, R161); the engine uses n in 1, 5 and 30. -/
def rotl (x : Word) (n : Nat) : Word := (x <<< n) ||| (x >>> (32 - n))

/-- Choose (R168). -/
def ch (b c d : Word) : Word := (b &&& c) ^^^ (~~~b &&& d)

/-- Parity (R169). -/
def parity (b c d : Word) : Word := b ^^^ c ^^^ d

/-- Majority (R170). -/
def maj (b c d : Word) : Word := (b &&& c) ^^^ (b &&& d) ^^^ (c &&& d)

/-- `f_t(b, c, d)`, by the group of step t (R171). -/
def roundFn (t : Nat) (b c d : Word) : Word :=
  if t < 20 then ch b c d else if t < 40 then parity b c d else if t < 60 then maj b c d else parity b c d

/-- `K_t`, by the group of step t (R171). -/
def roundConst (t : Nat) : Word :=
  if t < 20 then 0x5A827999 else if t < 40 then 0x6ED9EBA1 else if t < 60 then 0x8F1BBCDC else 0xCA62C1D6

/-! ### The message-schedule expander -/

/-- Message word i of the block, i = 0..15, big-endian (R53, R164). -/
def messageWord (blk : Block) (i : Nat) : Word :=
  beWord (blk.getD (4 * i) 0) (blk.getD (4 * i + 1) 0) (blk.getD (4 * i + 2) 0) (blk.getD (4 * i + 3) 0)

/-- The variant's treatment of the expanded word: rotated for SHA-1 (R165), as it is for SHA-0 (R166). -/
def expandRule : Variant → Word → Word
  | .sha1, x => rotl x 1
  | .sha0, x => x

/-- The next schedule word W[t] from the words before it, given newest first, so that W[t-3], W[t-8], W[t-14] and W[t-16] are the
entries 2, 7, 13 and 15; `R` is the variant's rule (R165, R166). -/
def nextWord (R : Word → Word) (ws : List Word) : Word :=
  R (ws.getD 2 0 ^^^ ws.getD 7 0 ^^^ ws.getD 13 0 ^^^ ws.getD 15 0)

/-- `n` further words put before the words given, newest first. -/
def expand (R : Word → Word) : Nat → List Word → List Word
  | 0, ws => ws
  | n + 1, ws => expand R n (nextWord R ws :: ws)

/-- The 80 schedule words of a block under the rule `R`, W[0] first. -/
def expandBlock (R : Word → Word) (blk : Block) : List Word :=
  (expand R 64 ((List.range 16).map (messageWord blk)).reverse).reverse

/-- The message schedule W[0..79] (R164 to R167): VAR selects the rule, and the rule is all it selects. -/
def schedule : Variant → Block → List Word
  | .sha1, blk => expandBlock (expandRule .sha1) blk
  | .sha0, blk => expandBlock (expandRule .sha0) blk

/-! ### The round pipeline -/

/-- Step t of the round pipeline with the schedule word `w` = W[t] (R173). -/
def roundStep (t : Nat) (w : Word) (x : Working) : Working where
  a := rotl x.a 5 + roundFn t x.b x.c x.d + x.e + w + roundConst t
  b := x.a
  c := rotl x.b 30
  d := x.c
  e := x.d

/-- The steps t, t + 1, … over the schedule words given, W[t] first. -/
def rounds : Nat → List Word → Working → Working
  | _, [], x => x
  | t, w :: ws, x => rounds (t + 1) ws (roundStep t w x)

/-- The working registers before step 0 (R172). -/
def seed (h : Chain) : Working := ⟨h.h0, h.h1, h.h2, h.h3, h.h4⟩

/-- The feed-forward addition, modulo 2^32 in each component (R174). -/
def feedForward (h : Chain) (x : Working) : Chain := ⟨h.h0 + x.a, h.h1 + x.b, h.h2 + x.c, h.h3 + x.d, h.h4 + x.e⟩

/-- `Compress(Hin, blk, var)` (R175): total, and a function of its three inputs alone (R163). -/
def compress (h : Chain) (blk : Block) (v : Variant) : Chain :=
  feedForward h (rounds 0 (schedule v blk) (seed h))

/-! ### The output serializer -/

/-- The digest as the response's DATA: `H0 ++ H1 ++ H2 ++ H3 ++ H4` (R55, R109). -/
def digest (h : Chain) : RspData := h.h0 ++ h.h1 ++ h.h2 ++ h.h3 ++ h.h4

end Sys2Proof.Machine
end

