-- ==== Sys2Proof/Machine/State.lean ====
section
/-! DEFINITION. The state of the engine and of the host that drives it, and the state after hardware reset. -/

namespace Sys2Proof.Machine

/-- The lifecycle bit FIN (R26): 0 = Active, 1 = Finalized. -/
inductive Lifecycle where
  | active
  | finalized
deriving DecidableEq, Repr

/-- The outcome of a command, as its response reports it (R71).  The code 3 is never produced (R203). -/
inductive Status where
  /-- Success. -/
  | ok
  /-- AlreadyFinalized: UPD, UPDZ or FINAL while Finalized (R201). -/
  | efin
  /-- An illegal command word (R202). -/
  | eill
deriving DecidableEq, Repr

/-- A response as it leaves on `rsp_status` and `rsp_data` (R226). -/
structure Response where
  status : BitVec 2
  data : RspData
deriving DecidableEq, Repr

/-- The levels the host drives at one rising edge of `clk` (R226); `cmd_word` is the oldest of the words the host has to offer. -/
structure Pins where
  rst : Bool
  cmdValid : Bool
  rspReady : Bool
deriving DecidableEq, Repr

/-- The listed bytes of the block buffer, offset and byte, offsets strictly rising below 64; an unlisted offset holds no byte that a
rule gives (R23, R51). -/
abbrev Memory := List Host.Cell

/-- Everything the spec gives the machine.  `bufEpoch` and `draws` are the model's own: they number the free values of Config. -/
@[ext]
structure State where
  /-- H0..H4, the chaining-state register file (R20). -/
  h : Chain
  /-- BITLEN, the bit-length counter (R22). -/
  bitlen : Word64
  /-- BUF, the block buffer (R23, R51). -/
  buf : Memory
  /-- FILL, the fill index, 0..63 (R24). -/
  fill : BitVec 6
  /-- FIN, the lifecycle bit (R26). -/
  fin : Lifecycle
  /-- VAR, the variant bit (R27). -/
  var : Variant
  /-- RSP_PENDING: a response the host has not yet taken is held (R28). -/
  rspPending : Bool
  /-- RSP_STATUS of the response holding register (R28). -/
  rspStatus : BitVec 2
  /-- RSP_DATA of the response holding register (R28). -/
  rspData : RspData
  /-- The working registers a..e, meaningful only inside a compression (R31). -/
  work : Working
  /-- The message-schedule store W[0..79], meaningful only inside a compression (R32). -/
  sched : Vector Word 80
  /-- The step counter t, 0..79, meaningful only inside a compression (R32). -/
  stepCounter : Fin 80
  /-- The number of commands completed since the last hardware reset, without width limit (R33). -/
  pc : Nat
  /-- The model's own: the epoch of the buffer's stale bytes (log entries 1 and 12). -/
  bufEpoch : Nat
  /-- The model's own: the number of free register values drawn so far (log entries 3, 4 and 12). -/
  draws : Nat
  /-- The host: the command words it has to offer, oldest first; the first stands on `cmd_word` (R63, R226). -/
  cmds : List CmdWord
  /-- The host: the levels of its pins at the coming rising edges (R226); log entry 5 says what holds when none is left. -/
  pins : List Pins
  /-- The host: the responses it has taken, oldest first; this is the observation of a run (R12).  Log entry 13. -/
  taken : List Response
deriving DecidableEq, Repr

/-- Why a step stops with a fault: there is no reason.  Every command word in every state has a response (R12, R203, R230). -/
inductive Fault where
deriving DecidableEq, Repr

/-- Why a step has no meaning. -/
inductive Refusal where
  /-- Raised by an arm of `exec` whose instruction has no meaning yet, under the table's mnemonic; safe.  No arm raises it. -/
  | notModelled (mnemonic : String)
deriving DecidableEq, Repr

/-- The machine right after hardware reset (R36, R220), with a host that has nothing to offer.  The registers to which the spec gives
no reset value are 0 (log entry 2). -/
def State.reset : State where
  h := initialChain
  bitlen := 0
  buf := []
  fill := 0
  fin := .active
  var := .sha1
  rspPending := false
  rspStatus := 0
  rspData := 0
  work := ⟨0, 0, 0, 0, 0⟩
  sched := Vector.replicate 80 0
  stepCounter := 0
  pc := 0
  bufEpoch := 0
  draws := 0
  cmds := []
  pins := []
  taken := []

end Sys2Proof.Machine
end

