-- ==== Sys2Proof/Machine/Ops.lean ====
section
/-! DEFINITION. The named operations over the block buffer, the registers and the response register, which every meaning shares. -/

namespace Sys2Proof.Machine

/-! ### The block buffer (R51, R52) -/

/-- The byte listed at an offset, if one is. -/
def Memory.read? : Memory → Nat → Option Byte
  | [], _ => none
  | (k, c) :: m, a => if k = a then some c else Memory.read? m a

/-- The memory with byte `b` at offset `a`; the offsets stay strictly rising. -/
def Memory.write : Memory → Nat → Byte → Memory
  | [], a, b => [(a, b)]
  | (k, c) :: m, a, b =>
    if a < k then (a, b) :: (k, c) :: m
    else if a = k then (a, b) :: m
    else (k, c) :: Memory.write m a b

/-- Every offset is at least `lo` and below 64, and they rise strictly. -/
def Memory.wfFrom : Nat → Memory → Bool
  | _, [] => true
  | lo, (k, _) :: m => decide (lo ≤ k) && decide (k < 64) && Memory.wfFrom (k + 1) m

/-- The canonical form: the offsets of the 64-byte buffer, strictly rising.  An unlisted offset holds no value, so no entry can equal
what one reads as. -/
def Memory.wf (m : Memory) : Bool := Memory.wfFrom 0 m

/-- The byte the engine finds at an offset of BUF: the listed one, or the free value of a stale byte (R23, log entry 1). -/
def State.readBuf (s : State) (a : Nat) : Byte := (Memory.read? s.buf a).getD (Config.staleByte s.bufEpoch a)

/-- `BUF[a] <- b` (R10). -/
def State.storeBuf (s : State) (a : Nat) (b : Byte) : State := { s with buf := Memory.write s.buf a b }

/-- Bytes stored at consecutive offsets, the first at `a`. -/
def State.storeBytes (s : State) (a : Nat) : List Byte → State
  | [] => s
  | b :: bs => (s.storeBuf a b).storeBytes (a + 1) bs

/-- `MemRead(addr, n)` (R10, R52): big-endian. -/
def State.memRead (s : State) (addr n : Nat) : BitVec (8 * n) :=
  BitVec.ofNat (8 * n) (beNat ((List.range n).map fun k => s.readBuf (addr + k)))

/-- `MemWrite(addr, n, v)` (R10, R52): big-endian. -/
def State.memWrite (s : State) (addr n : Nat) {w : Nat} (v : BitVec w) : State := s.storeBytes addr (beBytes n v)

/-- `n` zero bytes from offset `a` on. -/
def State.zeroFill (s : State) (a n : Nat) : State := s.storeBytes a (List.replicate n 0)

/-- BUF[0..63] as the block that `Compress` reads. -/
def State.block (s : State) : Block := Vector.ofFn fun i => s.readBuf i

/-- All of BUF becomes stale: no byte stays listed, and a new epoch of stale bytes begins (R23, log entry 1). -/
def State.discardBuf (s : State) : State := { s with buf := [], bufEpoch := s.bufEpoch + 1 }

/-! ### The round pipeline and the chaining state -/

/-- The working registers, the schedule and the step counter hold unspecified values again (R31, R32, log entry 3). -/
def State.releasePipeline (s : State) : State :=
  { s with
    work := ⟨Config.freeWord s.draws 0, Config.freeWord s.draws 1, Config.freeWord s.draws 2, Config.freeWord s.draws 3,
      Config.freeWord s.draws 4⟩
    sched := Vector.ofFn fun i => Config.freeWord s.draws (5 + i)
    stepCounter := Config.freeStep s.draws
    draws := s.draws + 1 }

/-- `for blk in blocks, in order: H0..H4 <- Compress(H0..H4, blk, VAR)` (R107, R145, R163). -/
def State.compressBlocks (s : State) (blocks : List Block) : State :=
  { s with h := blocks.foldl (fun h blk => compress h blk s.var) s.h }.releasePipeline

/-- `H0..H4 <- Compress(H0..H4, BUF[0..63], VAR)` (R102). -/
def State.compressBuf (s : State) : State := s.compressBlocks [s.block]

/-! ### The block buffer controller (R102) -/

/-- `Absorb(x)` (R102).  BITLEN wraps modulo 2^64 (R22). -/
def State.absorb (s : State) (x : Byte) : State :=
  let t := { s.storeBuf s.fill.toNat x with bitlen := s.bitlen + 8 }
  if s.fill = 63 then { t.compressBuf.discardBuf with fill := 0 } else { t with fill := s.fill + 1 }

/-- The bytes absorbed one at a time, in order (R105). -/
def State.absorbAll (s : State) : List Byte → State
  | [] => s
  | x :: xs => (s.absorb x).absorbAll xs

/-! ### The response register (R28, R71) -/

/-- The status codes (R71). -/
def Status.code : Status → BitVec 2
  | .ok => 0
  | .efin => 1
  | .eill => 2

/-- `respond(status, data)` and the `pc <- pc + 1` that ends every command (R10, R33, R100). -/
def State.respond (s : State) (status : Status) (data : RspData) : State :=
  { s with rspPending := true, rspStatus := status.code, rspData := data, pc := s.pc + 1 }

/-- Taking an exception on this hardware, `raise <Error>` (R10, R200): the command completes with the error's code and DATA = 0 and
nothing else changes (R206).  Nothing is saved and there is no return from it (R208). -/
def State.raise (s : State) (error : Status) : State := s.respond error 0

/-- The host takes the response (R28, R226), which joins the observation of the run (R12); the register's two data fields are
unspecified from then on (R28, log entry 4). -/
def State.takeResponse (s : State) : State :=
  { s with
    rspPending := false
    rspStatus := Config.freeStatus s.draws
    rspData := Config.freeData s.draws
    draws := s.draws + 1
    taken := s.taken ++ [⟨s.rspStatus, s.rspData⟩] }

/-! ### Initialisation -/

/-- What INIT and hardware reset have in common, the source's `reset()` with the variant `v` (R104, R220): the constants of R21,
BITLEN and FILL 0, Active.  The pipeline is unspecified afterwards (R36). -/
def State.initialise (s : State) (v : Variant) : State :=
  { s with h := initialChain, bitlen := 0, fill := 0, fin := .active, var := v }.releasePipeline

/-- A rising edge with `rst` = 1 (R220).  A response not yet taken is abandoned (R221).  BUF, the pipeline and the data fields of the
response register become unspecified; the host's own state is not the engine's to change. -/
def State.hardwareReset (s : State) : State :=
  { (s.initialise .sha1).discardBuf with
    rspPending := false
    rspStatus := Config.freeStatus s.draws
    rspData := Config.freeData s.draws
    pc := 0 }

end Sys2Proof.Machine
end

