-- ==== Sys2Proof/Machine/Flags.lean ====
section
/-! DEFINITION. The engine's only status fields, FIN and VAR (R30): the lifecycle precondition and the status word. -/

namespace Sys2Proof.Machine

/-- The lifecycle bit FIN (R26). -/
def finBit : Lifecycle → BitVec 1
  | .active => 0#1
  | .finalized => 1#1

/-- The status word (R29): reserved zeros, FILL in bits 7:2, VAR in bit 1, FIN in bit 0. -/
def State.statusWord (s : State) : BitVec 32 := 0#24 ++ s.fill ++ variantBit s.var ++ finBit s.fin

/-- The lifecycle precondition of UPD, UPDZ and FINAL (R101): while Finalized, EFIN is raised before any state is touched; while
Active the command is performed and leaves `performed`. -/
def State.whenActive (s : State) (performed : State) : Host.Outcome State Fault Refusal :=
  match s.fin with
  | .finalized => .next (s.raise .efin)
  | .active => .next performed

end Sys2Proof.Machine
end

