-- ==== Sys2Proof/Machine/Control.lean ====
section
/-! DEFINITION. The commands without a lifecycle precondition: NOP, INIT and STAT (R101). -/

namespace Sys2Proof.Machine

/-- NOP (R103). -/
def execNop (s : State) : Host.Outcome State Fault Refusal := .next (s.respond .ok 0)

/-- INIT (R104).  BUF keeps its bytes, which are stale from then on (R36). -/
def execInit (v : Variant) (s : State) : Host.Outcome State Fault Refusal := .next ((s.initialise v).respond .ok 0)

/-- STAT (R108). -/
def execStat (s : State) : Host.Outcome State Fault Refusal := .next (s.respond .ok (s.statusWord.setWidth 160))

end Sys2Proof.Machine
end

