-- ==== Sys2Proof/Machine/Finalize.lean ====
section
/-! DEFINITION. The padding finalizer (`41_padding.md`) and FINAL, the source's `digest`. -/

namespace Sys2Proof.Machine

/-- The single block, FILL <= 55 (R142): terminator, zeros up to offset 55, the length field (R144). -/
def State.padSingle (s : State) : Block :=
  (((s.storeBuf s.fill.toNat 0x80).zeroFill (s.fill.toNat + 1) (55 - s.fill.toNat)).memWrite 56 8 s.bitlen).block

/-- The first block of the spillover case, FILL >= 56 (R143): terminator and zeros up to offset 63. -/
def State.padSpill (s : State) : Block :=
  ((s.storeBuf s.fill.toNat 0x80).zeroFill (s.fill.toNat + 1) (63 - s.fill.toNat)).block

/-- The second block of the spillover case (R143): zeros at offsets 0..55, the length field (R144). -/
def State.padLength (s : State) : Block := ((s.zeroFill 0 56).memWrite 56 8 s.bitlen).block

/-- `Pad(FILL, BUF[0 .. FILL-1], BITLEN)`: one block when FILL <= 55, else two, in order (R140 to R145, conflict C1).  Each is built in
BUF by the finalizer's writes; BITLEN is read and not changed (R146). -/
def State.padBlocks (s : State) : List Block := if s.fill.toNat ≤ 55 then [s.padSingle] else [s.padSpill, s.padLength]

/-- The state FINAL leaves, but for its response (R107): the padded blocks compressed, FIN = 1 and FILL = 0.  The bytes of BUF are stale
from then on (R23). -/
def State.afterFinal (s : State) : State :=
  { (s.compressBlocks s.padBlocks).discardBuf with fin := .finalized, fill := 0 }

/-- FINAL (R107): the response carries the digest of the final chaining value (R109). -/
def execFinal (s : State) : Host.Outcome State Fault Refusal :=
  s.whenActive (s.afterFinal.respond .ok (digest s.afterFinal.h))

end Sys2Proof.Machine
end

