-- ==== Sys2Proof/Machine/Update.lean ====
section
/-! DEFINITION. The commands of the source's `update`: UPD and UPDZ. -/

namespace Sys2Proof.Machine

/-- UPD (R105): with FIN = 1 no byte is absorbed.  A UPD that completes no block leaves the pipeline alone (log entry 14). -/
def execUpd (bytes : List Byte) (s : State) : Host.Outcome State Fault Refusal :=
  s.whenActive ((s.absorbAll bytes).respond .ok 0)

/-- UPDZ (R106): the precondition of `update` for the empty sequence. -/
def execUpdz (s : State) : Host.Outcome State Fault Refusal := s.whenActive (s.respond .ok 0)

end Sys2Proof.Machine
end

