-- ==== Sys2Proof/Machine/Dispatch.lean ====
section
/-! DEFINITION. One arm per constructor of `Instr`: the meaning of every command of the opcode table (R72). -/

namespace Sys2Proof.Machine

def exec (i : Instr) (s : State) : Host.Outcome State Fault Refusal :=
  match i with
  | .nop => Sys2Proof.Machine.execNop s
  | .init v => Sys2Proof.Machine.execInit v s
  | .upd bytes => Sys2Proof.Machine.execUpd bytes s
  | .updz => Sys2Proof.Machine.execUpdz s
  | .final => Sys2Proof.Machine.execFinal s
  | .stat => Sys2Proof.Machine.execStat s

end Sys2Proof.Machine
end

