-- ==== Sys2Proof/Machine/Port.lean ====
section
/-! DEFINITION. The command and response ports (R226, R227), the command cycle (R100) and what one rising edge of the clock does. -/

namespace Sys2Proof.Machine

/-- The levels of a host that has no more to say about its pins (log entry 5): it offers the words it has and takes every response
(R227), with `rst` low. -/
def idlePins : Pins where
  rst := false
  cmdValid := true
  rspReady := true

/-- The host's pins at the coming rising edge. -/
def State.pinsNow (s : State) : Pins := s.pins.headD idlePins

/-- The state once the host's pins of this edge are used up. -/
def State.nextPins (s : State) : State := { s with pins := s.pins.tail }

/-- `cmd_ready`, between commands (R220, R227). -/
def State.cmdReady (s : State) : Bool := !s.pinsNow.rst && !s.rspPending

/-- `rsp_valid` (R220, R226). -/
def State.rspValid (s : State) : Bool := !s.pinsNow.rst && s.rspPending

/-- The word that stands on `cmd_word` with `cmd_valid` = 1, if one does (R226). -/
def State.offered (s : State) : Option CmdWord := if s.pinsNow.cmdValid then s.cmds.head? else none

/-- The state once the host's first command word has transferred. -/
def State.nextCmd (s : State) : State := { s with cmds := s.cmds.tail }

/-- `step(CMD)` of R100: decode first, so that EILL wins over EFIN (R205), then perform the command. -/
def command (w : CmdWord) (s : State) : Host.Outcome State Fault Refusal :=
  match decode w with
  | .error _ => .next (s.raise .eill)
  | .ok i => exec i s

/-- One rising edge of `clk` at which the engine is not performing a command (log entry 6).  `rst` overrides the ports (R220); a response
transfers with `rsp_valid` = `rsp_ready` = 1; a command transfers with `cmd_valid` = `cmd_ready` = 1 and is performed whole (R61);
otherwise the engine holds its state (R215). -/
def edge (s : State) : Host.Outcome State Fault Refusal :=
  if s.pinsNow.rst then .next s.nextPins.hardwareReset
  else if s.rspValid && s.pinsNow.rspReady then .next s.nextPins.takeResponse
  else
    match s.offered with
    | some w => if s.cmdReady then command w s.nextPins.nextCmd else .next s.nextPins
    | none => .next s.nextPins

/-- The state in which the host offers `w` and the engine accepts it at the very next edge: any response before it is taken as gone and
`rst` is low. -/
def State.offer (s : State) (w : CmdWord) : State :=
  { s with rspPending := false, cmds := w :: s.cmds, pins := idlePins :: s.pins }

end Sys2Proof.Machine
end

