-- ==== Sys2Proof/Machine/Step.lean ====
section
/-! DEFINITION. One step of the machine, and how the host places a command word to be run next. -/

namespace Sys2Proof.Machine

/-- One step is one rising edge of `clk` at which the engine is not performing a command (log entry 6). -/
def step (s : State) : Host.Outcome State Fault Refusal := edge s

/-- The state whose next step accepts and performs the word that the opcode table's numbering gives (log entry 7). -/
def State.withFetchWord (s : State) (nbits w : Nat) : State := s.offer (tableWord nbits w)

end Sys2Proof.Machine
end

