-- ==== Sys2Proof/Machine/HostApi.lean ====
section
/-! DEFINITION. The host library: the pseudo-instructions of R84, by which the source's API drives the engine (R111), and a sequence of
commands performed one after the other. -/

namespace Sys2Proof.Machine

/-- A byte sequence cut into pieces of 4, with the rest of 1 to 3 bytes, if any, last (R84). -/
def pieces : List Byte → List (List Byte)
  | a :: b :: c :: d :: rest => [a, b, c, d] :: pieces rest
  | [] => []
  | short => [short]

/-- `UPDATE s` (R84). -/
def updateProgram (msg : List Byte) : List Instr := if msg = [] then [.updz] else (pieces msg).map .upd

/-- `HASH v, s` (R84). -/
def hashProgram (v : Variant) (msg : List Byte) : List Instr := .init v :: updateProgram msg ++ [.final]

/-- Commands performed in the order given, each accepted once the response before it is gone (R63). -/
def execAll : List Instr → State → Host.Outcome State Fault Refusal
  | [], s => .next s
  | i :: is, s =>
    match exec i s with
    | .next t => execAll is t
    | .fault r => .fault r
    | .refused r => .refused r

/-- The message bytes a command carries. -/
def messageOf : Instr → List Byte
  | .nop => []
  | .init _ => []
  | .upd bytes => bytes
  | .updz => []
  | .final => []
  | .stat => []

end Sys2Proof.Machine
end

