-- ==== Sys2Proof/Safety.lean ====
section
/-! DEFINITION. The terms in which claims about the engine are stated: its invariants, when two states are the same to every later
command, and the functions the engine is meant to compute. -/

namespace Sys2Proof.Machine

/-! ### Invariants -/

/-- The fill invariant (R25). -/
def State.FillInv (s : State) : Prop :=
  s.bitlen.toNat % 8 = 0 ∧ (s.fin = .active → s.fill.toNat = s.bitlen.toNat / 8 % 64)

/-- What holds of every state a run from reset reaches. -/
structure State.Inv (s : State) : Prop where
  /-- The block buffer is in canonical form. -/
  bufWf : Memory.wf s.buf = true
  /-- Every pending message byte is a byte that was absorbed: none of them is stale (R23, R148). -/
  bufFilled : ∀ a, a < s.fill.toNat → (Memory.read? s.buf a).isSome = true
  /-- The fill invariant (R25). -/
  fillInv : s.FillInv
  /-- After FINAL nothing is pending (R107). -/
  finalizedEmpty : s.fin = .finalized → s.fill = 0
  /-- No response with the code 3 is held (R203). -/
  heldStatus : s.rspPending = true → s.rspStatus ≠ 3
  /-- No response with the code 3 was taken (R203). -/
  takenStatus : ∀ r, r ∈ s.taken → r.status ≠ 3

/-! ### Architectural equality -/

/-- Two states agree on the architectural state of `10_state.md` section 1: on what decides the response of some later command.  The
stale bytes, the pipeline, `pc`, the response register and the host are no part of it. -/
structure State.SameArch (s t : State) : Prop where
  h : s.h = t.h
  bitlen : s.bitlen = t.bitlen
  fill : s.fill = t.fill
  fin : s.fin = t.fin
  var : s.var = t.var
  pending : ∀ a, a < s.fill.toNat → s.readBuf a = t.readBuf a

/-- The state less `pc` and the response register, the only two things that depend on how many commands delivered a message. -/
def State.lessResponse (s : State) : State := { s with pc := 0, rspPending := false, rspStatus := 0, rspData := 0 }

/-! ### Runs of command words -/

/-- The state a command word leaves (R12). -/
def served (w : CmdWord) (s : State) : State :=
  match command w s with
  | .next t => t
  | .fault _ => s
  | .refused _ => s

/-- The responses to command words offered in this order, each accepted once the response before it is gone: the observation of a run
(R12, R63). -/
def responses : List CmdWord → State → List Response
  | [], _ => []
  | w :: ws, s => ⟨(served w s).rspStatus, (served w s).rspData⟩ :: responses ws (served w s)

/-- What a Finalized engine in state `s` answers to a word other than INIT (R204, R216). -/
def finalizedReply (s : State) (w : CmdWord) : Response :=
  match decode w with
  | .error _ => ⟨2, 0⟩
  | .ok .nop => ⟨0, 0⟩
  | .ok (.init _) => ⟨0, 0⟩
  | .ok (.upd _) => ⟨1, 0⟩
  | .ok .updz => ⟨1, 0⟩
  | .ok .final => ⟨1, 0⟩
  | .ok .stat => ⟨0, s.statusWord.setWidth 160⟩

/-! ### The hash of a whole message -/

/-- The 64-bit message length in bits (R22, R144). -/
def lengthField (msg : List Byte) : Word64 := BitVec.ofNat 64 (8 * msg.length)

/-- The padded message: message, terminator, zeros, length (R141 to R144, R149). -/
def padMessage (msg : List Byte) : List Byte :=
  msg ++ 0x80#8 :: List.replicate ((119 - msg.length % 64) % 64) 0 ++ beBytes 8 (lengthField msg)

/-- Block i of a byte sequence. -/
def blockOf (bytes : List Byte) (i : Nat) : Block := Vector.ofFn fun j => bytes.getD (64 * i + j) 0

/-- The chaining value after every block of the padded message is folded in, in order: the Merkle–Damgård construction (R1, R13). -/
def hashMessage (v : Variant) (msg : List Byte) : Chain :=
  (List.range ((padMessage msg).length / 64)).foldl (fun h i => compress h (blockOf (padMessage msg) i) v) initialChain

/-! ### The sixteen-word schedule window (R176) -/

/-- One step of the window: slot `t mod 16` takes W[t] (R176). -/
def windowStep (v : Variant) (w : Vector Word 16) (t : Nat) : Vector Word 16 :=
  w.set! (t % 16)
    (expandRule v
      (w.getD ((t - 3) % 16) 0 ^^^ w.getD ((t - 8) % 16) 0 ^^^ w.getD ((t - 14) % 16) 0 ^^^ w.getD (t % 16) 0))

/-- The window once the words W[16], …, W[15 + n] are computed (R176). -/
def window (v : Variant) (blk : Block) : Nat → Vector Word 16
  | 0 => Vector.ofFn fun i => messageWord blk i
  | n + 1 => windowStep v (window v blk n) (16 + n)

/-- The word the window form uses as W[t]: slot `t mod 16` once W[t] is in it (R176). -/
def windowWord (v : Variant) (blk : Block) (t : Nat) : Word := (window v blk (t - 15)).getD (t % 16) 0

end Sys2Proof.Machine
end

