-- ==== Sys2Proof/Certificates/Slice0/Obligations.lean ====
section
/-! DEFINITION. The statements about the model, each with the rule of the spec it formalises. -/

section Statements

open Sys2Proof Sys2Proof.Machine

/-! ### Reset and initialisation -/

/-- R21: INIT and hardware reset set H0..H4 to the five constants, whichever the variant; so does the state after reset. -/
def Obligations.InitAndResetLoadInitialChain : Prop :=
  State.reset.h = ⟨0x67452301, 0xEFCDAB89, 0x98BADCFE, 0x10325476, 0xC3D2E1F0⟩ ∧
  (∀ s : State, s.pinsNow.rst = true →
    ∃ t, step s = .next t ∧ t.h = ⟨0x67452301, 0xEFCDAB89, 0x98BADCFE, 0x10325476, 0xC3D2E1F0⟩) ∧
  (∀ (v : Variant) (s : State),
    ∃ t, exec (.init v) s = .next t ∧ t.h = ⟨0x67452301, 0xEFCDAB89, 0x98BADCFE, 0x10325476, 0xC3D2E1F0⟩)

/-- R36: the state after hardware reset, for every field to which the spec gives a reset value. -/
def Obligations.ResetStateHasSpecifiedValues : Prop :=
  State.reset.h = ⟨0x67452301, 0xEFCDAB89, 0x98BADCFE, 0x10325476, 0xC3D2E1F0⟩ ∧ State.reset.bitlen = 0 ∧
  State.reset.fill = 0 ∧ State.reset.fin = .active ∧ State.reset.var = .sha1 ∧ State.reset.rspPending = false ∧
  State.reset.pc = 0

/-- R220, R221: a rising edge with `rst` = 1 initialises the engine from every state, with the ports closed; a response not yet taken is
abandoned.  That the host's lists stay as they are is the model's choice (log entry 13). -/
def Obligations.HardwareResetInitialisesEngine : Prop :=
  ∀ s : State, s.pinsNow.rst = true →
    s.cmdReady = false ∧ s.rspValid = false ∧
    ∃ t, step s = .next t ∧
      t.h = ⟨0x67452301, 0xEFCDAB89, 0x98BADCFE, 0x10325476, 0xC3D2E1F0⟩ ∧ t.bitlen = 0 ∧ t.fill = 0 ∧ t.fin = .active ∧
      t.var = .sha1 ∧ t.rspPending = false ∧ t.pc = 0 ∧
      t.cmds = s.cmds ∧ t.pins = s.pins.tail ∧ t.taken = s.taken

/-- R104: what INIT sets, and its frame: every byte of BUF reads as before (R36), and the host is untouched. -/
def Obligations.InitResetsEngineAndSelectsVariant : Prop :=
  ∀ (v : Variant) (s : State),
    ∃ t, exec (.init v) s = .next t ∧
      t.h = ⟨0x67452301, 0xEFCDAB89, 0x98BADCFE, 0x10325476, 0xC3D2E1F0⟩ ∧ t.bitlen = 0 ∧ t.fill = 0 ∧ t.fin = .active ∧
      t.var = v ∧ t.rspPending = true ∧ t.rspStatus = 0 ∧ t.rspData = 0 ∧ t.pc = s.pc + 1 ∧
      (∀ a, t.readBuf a = s.readBuf a) ∧ t.cmds = s.cmds ∧ t.pins = s.pins ∧ t.taken = s.taken

/-- R222: hardware reset leaves the architectural state that `INIT sha1` leaves, from any two states; INIT besides produces a response
and advances `pc`. -/
def Obligations.HardwareResetAgreesWithInitSha1 : Prop :=
  ∀ s u : State, s.pinsNow.rst = true →
    ∃ t t', step s = .next t ∧ exec (.init .sha1) u = .next t' ∧ t.SameArch t' ∧
      t.rspPending = false ∧ t'.rspPending = true ∧ t'.pc = u.pc + 1

/-- R225: two hardware resets, two INITs with the same variant, and a hardware reset followed by `INIT sha1` leave the architectural
state that one of them leaves. -/
def Obligations.RepeatedResetLeavesSameState : Prop :=
  (∀ s : State, s.pinsNow.rst = true →
    ∃ t, step s = .next t ∧ (t.pinsNow.rst = true → ∃ u, step t = .next u ∧ u.SameArch t)) ∧
  (∀ (v : Variant) (s : State), ∃ t u, exec (.init v) s = .next t ∧ exec (.init v) t = .next u ∧ u.SameArch t) ∧
  (∀ s : State, s.pinsNow.rst = true →
    ∃ t u, step s = .next t ∧ exec (.init .sha1) t = .next u ∧ u.SameArch t)

/-! ### Invariants -/

/-- The invariant holds after reset. -/
def Obligations.InvariantHoldsAtReset : Prop := State.reset.Inv

/-- Every step keeps the invariant: BUF canonical and free of stale bytes below FILL, the fill invariant (R25), FILL = 0 while Finalized,
no response with the code 3 (R203).
The canonical form is the model's (log entry 1). -/
def Obligations.StepKeepsInvariant : Prop := ∀ s t : State, s.Inv → step s = .next t → t.Inv

/-- R25: between commands BITLEN mod 8 = 0 and, while FIN = 0, FILL = (BITLEN >> 3) mod 64.  It holds at reset and every step keeps it,
the wrap of BITLEN included. -/
def Obligations.FillInvariantHoldsAndIsKept : Prop :=
  State.reset.FillInv ∧ ∀ s t : State, s.FillInv → step s = .next t → t.FillInv

/-- Two buffers in the model's canonical form (log entry 1) that list the same bytes are the same data. -/
def Obligations.CanonicalBuffersAreEqual : Prop :=
  ∀ m m' : Memory, Memory.wf m = true → Memory.wf m' = true →
    (∀ a, a < 64 → Memory.read? m a = Memory.read? m' a) → m = m'

/-! ### The block buffer and byte order -/

/-- R53: `MemRead(4*i, 4)` of BUF is message word i of the block `Compress` reads, big-endian. -/
def Obligations.MessageWordsAreBigEndian : Prop :=
  ∀ (s : State) (i : Nat), i < 16 →
    messageWord s.block i
      = s.readBuf (4 * i) ++ s.readBuf (4 * i + 1) ++ s.readBuf (4 * i + 2) ++ s.readBuf (4 * i + 3) ∧
    messageWord s.block i = s.memRead (4 * i) 4

/-- R54: `MemWrite(56, 8, v)` puts `v[63-8k : 56-8k]` at offset 56 + k for k = 0..7 and leaves every other offset alone. -/
def Obligations.LengthFieldIsBigEndian : Prop :=
  ∀ (s : State) (v : Word64),
    (∀ k, k < 8 → (s.memWrite 56 8 v).readBuf (56 + k) = v.extractLsb' (56 - 8 * k) 8) ∧
    (∀ a, a < 56 ∨ 64 ≤ a → (s.memWrite 56 8 v).readBuf a = s.readBuf a)

/-- R56: a UPD of four bytes at FILL mod 4 = 0 places DATA unchanged into the message word W[FILL/4]: of BUF where the block is not yet
complete, and of the block it compresses where it is the block's last word. -/
def Obligations.AlignedUpdPlacesDataUnchanged : Prop :=
  ∀ (s : State) (data : BitVec 32), s.fin = .active → s.fill.toNat % 4 = 0 →
    ∃ i t, decode (0x2#4 ++ 0#2 ++ 3#2 ++ data) = .ok i ∧ exec i s = .next t ∧
      (s.fill.toNat < 60 → messageWord t.block (s.fill.toNat / 4) = data) ∧
      (s.fill.toNat = 60 → ∃ blk, t.h = compress s.h blk s.var ∧ messageWord blk 15 = data ∧
        ∀ j, j < 15 → messageWord blk j = messageWord s.block j)

/-! ### The commands: NOP, STAT, UPDZ -/

/-- R103: NOP answers OK and leaves every piece of state unchanged, in either lifecycle state and with any DATA; with Z or N not zero the
word is illegal. -/
def Obligations.NopAnswersAndChangesNothing : Prop :=
  (∀ s : State, exec .nop s = .next { s with rspPending := true, rspStatus := 0, rspData := 0, pc := s.pc + 1 }) ∧
  (∀ data : BitVec 32, decode (0x0#4 ++ 0#2 ++ 0#2 ++ data) = .ok .nop) ∧
  (∀ (z n : BitVec 2) (data : BitVec 32) (s : State), z ≠ 0 ∨ n ≠ 0 →
    command (0x0#4 ++ z ++ n ++ data) s
      = .next { s with rspPending := true, rspStatus := 2, rspData := 0, pc := s.pc + 1 })

/-- R108: STAT answers OK with the status word FILL ++ VAR ++ FIN, zero-extended to 160 bits, in either lifecycle state and with any
DATA, and changes nothing else; with Z or N not zero the word is illegal.  That the pipeline registers keep their values is the model's
reading (log entry 14). -/
def Obligations.StatAnswersStatusWord : Prop :=
  (∀ s : State, exec .stat s = .next { s with
    rspPending := true, rspStatus := 0,
    rspData := (s.fill ++ (if s.var = .sha0 then 1#1 else 0#1) ++ (if s.fin = .finalized then 1#1 else 0#1)).setWidth 160,
    pc := s.pc + 1 }) ∧
  (∀ data : BitVec 32, decode (0x5#4 ++ 0#2 ++ 0#2 ++ data) = .ok .stat) ∧
  (∀ (z n : BitVec 2) (data : BitVec 32) (s : State), z ≠ 0 ∨ n ≠ 0 →
    command (0x5#4 ++ z ++ n ++ data) s
      = .next { s with rspPending := true, rspStatus := 2, rspData := 0, pc := s.pc + 1 })

/-- R29: the bits of STAT's response, one by one. -/
def Obligations.StatusWordBits : Prop :=
  ∀ s : State, ∃ t, exec .stat s = .next t ∧ ∀ i, i < 160 →
    t.rspData.getLsbD i =
      (if i = 0 then decide (s.fin = .finalized)
       else if i = 1 then decide (s.var = .sha0)
       else if i < 8 then s.fill.getLsbD (i - 2)
       else false)

/-- R106: UPDZ while Active answers OK and changes nothing else; while Finalized it fails with EFIN and changes nothing else; any DATA is
the same command, and with Z or N not zero the word is illegal. -/
def Obligations.UpdzChecksLifecycleOnly : Prop :=
  (∀ s : State, s.fin = .active →
    exec .updz s = .next { s with rspPending := true, rspStatus := 0, rspData := 0, pc := s.pc + 1 }) ∧
  (∀ s : State, s.fin = .finalized →
    exec .updz s = .next { s with rspPending := true, rspStatus := 1, rspData := 0, pc := s.pc + 1 }) ∧
  (∀ data : BitVec 32, decode (0x3#4 ++ 0#2 ++ 0#2 ++ data) = .ok .updz) ∧
  (∀ (z n : BitVec 2) (data : BitVec 32) (s : State), z ≠ 0 ∨ n ≠ 0 →
    command (0x3#4 ++ z ++ n ++ data) s
      = .next { s with rspPending := true, rspStatus := 2, rspData := 0, pc := s.pc + 1 })

/-! ### The commands: UPD -/

/-- R102: the absorption of one byte, as the one-byte UPD performs it: the byte goes to BUF[FILL], BITLEN grows by 8, and the 64th byte
of a block compresses it and clears the buffer. -/
def Obligations.OneByteUpdAbsorbsTheByte : Prop :=
  ∀ (s : State) (x : Byte), s.fin = .active →
    (s.fill ≠ 63 → ∃ t, exec (.upd [x]) s = .next t ∧
      t.readBuf s.fill.toNat = x ∧ (∀ a, a ≠ s.fill.toNat → t.readBuf a = s.readBuf a) ∧
      t.bitlen = s.bitlen + 8 ∧ t.fill.toNat = s.fill.toNat + 1 ∧ t.h = s.h ∧ t.var = s.var) ∧
    (s.fill = 63 → ∃ t, exec (.upd [x]) s = .next t ∧
      t.h = compress s.h (Vector.ofFn fun i : Fin 64 => if i.val = 63 then x else s.readBuf i) s.var ∧
      t.bitlen = s.bitlen + 8 ∧ t.fill = 0 ∧ t.var = s.var)

/-- R105, R102: a UPD of 1 to 4 bytes that does not complete a block stores them at FILL, FILL + 1, … and changes BITLEN and FILL with
them; nothing else changes but the response and `pc`.  That the pipeline registers keep their values too is the model's reading (log entry
14). -/
def Obligations.UpdWithinBlockStoresItsBytes : Prop :=
  ∀ (s : State) (bytes : List Byte), s.fin = .active → (Instr.upd bytes).wellFormed = true →
    s.fill.toNat + bytes.length < 64 →
    ∃ t, exec (.upd bytes) s = .next t ∧
      (∀ k, k < bytes.length → t.readBuf (s.fill.toNat + k) = bytes.getD k 0) ∧
      (∀ a, a < s.fill.toNat ∨ s.fill.toNat + bytes.length ≤ a → t.readBuf a = s.readBuf a) ∧
      t.bitlen = s.bitlen + BitVec.ofNat 64 (8 * bytes.length) ∧ t.fill.toNat = s.fill.toNat + bytes.length ∧
      t = { s with
        buf := t.buf, bitlen := t.bitlen, fill := t.fill,
        rspPending := true, rspStatus := 0, rspData := 0, pc := s.pc + 1 }

/-- R105, R102: a UPD of 1 to 4 bytes that completes a block compresses that block once, inside the command, and the bytes past the
boundary start the next block.  FIN, VAR and the host are unchanged. -/
def Obligations.UpdAcrossBoundaryCompressesOnce : Prop :=
  ∀ (s : State) (bytes : List Byte), s.fin = .active → (Instr.upd bytes).wellFormed = true →
    64 ≤ s.fill.toNat + bytes.length →
    ∃ t, exec (.upd bytes) s = .next t ∧
      t.h = compress s.h
        (Vector.ofFn fun i : Fin 64 =>
          if i.val < s.fill.toNat then s.readBuf i else bytes.getD (i - s.fill.toNat) 0) s.var ∧
      t.fill.toNat = s.fill.toNat + bytes.length - 64 ∧
      (∀ a, a < t.fill.toNat → t.readBuf a = bytes.getD (64 - s.fill.toNat + a) 0) ∧
      t.bitlen = s.bitlen + BitVec.ofNat 64 (8 * bytes.length) ∧ t.fin = s.fin ∧ t.var = s.var ∧
      t.rspPending = true ∧ t.rspStatus = 0 ∧ t.rspData = 0 ∧ t.pc = s.pc + 1 ∧
      t.cmds = s.cmds ∧ t.pins = s.pins ∧ t.taken = s.taken

/-! ### The commands: FINAL -/

/-- R142: FINAL with FILL <= 55 compresses one block: the pending bytes, the terminator, zeros up to offset 55 and BITLEN, big-endian
(R141, R144).  BITLEN itself is unchanged (R146). -/
def Obligations.FinalPadsShortTailInOneBlock : Prop :=
  ∀ s : State, s.fin = .active → s.fill.toNat ≤ 55 →
    ∃ t, exec .final s = .next t ∧ t.bitlen = s.bitlen ∧
      t.h = compress s.h
        (Vector.ofFn fun i : Fin 64 =>
          if i.val < s.fill.toNat then s.readBuf i else if i.val = s.fill.toNat then 0x80#8
          else if i.val < 56 then 0#8 else s.bitlen.extractLsb' (8 * (63 - i.val)) 8) s.var

/-- R143, R145: FINAL with 56 <= FILL <= 63 compresses two blocks in order: the pending bytes, the terminator and zeros; then zeros and
BITLEN, big-endian (R144).  BITLEN itself is unchanged (R146). -/
def Obligations.FinalPadsLongTailInTwoBlocks : Prop :=
  ∀ s : State, s.fin = .active → 56 ≤ s.fill.toNat →
    ∃ t, exec .final s = .next t ∧ t.bitlen = s.bitlen ∧
      t.h = compress
        (compress s.h
          (Vector.ofFn fun i : Fin 64 =>
            if i.val < s.fill.toNat then s.readBuf i else if i.val = s.fill.toNat then 0x80#8 else 0#8) s.var)
        (Vector.ofFn fun i : Fin 64 => if i.val < 56 then 0#8 else s.bitlen.extractLsb' (8 * (63 - i.val)) 8) s.var

/-- R109, R107: FINAL while Active answers OK with the digest `H0 ++ … ++ H4` of the final chaining value, byte 4i + k of it being
`Hi[31-8k : 24-8k]` (R55), sets FIN and clears FILL; BITLEN, VAR and the host are unchanged. -/
def Obligations.FinalReturnsDigestAndFinalizes : Prop :=
  ∀ s : State, s.fin = .active →
    ∃ t, exec .final s = .next t ∧
      t.rspPending = true ∧ t.rspStatus = 0 ∧ t.rspData = t.h.h0 ++ t.h.h1 ++ t.h.h2 ++ t.h.h3 ++ t.h.h4 ∧
      (∀ i k, i < 5 → k < 4 → t.rspData.extractLsb' (152 - 8 * (4 * i + k)) 8
        = ([t.h.h0, t.h.h1, t.h.h2, t.h.h3, t.h.h4].getD i 0).extractLsb' (24 - 8 * k) 8) ∧
      t.fin = .finalized ∧ t.fill = 0 ∧ t.bitlen = s.bitlen ∧ t.var = s.var ∧ t.pc = s.pc + 1 ∧
      t.cmds = s.cmds ∧ t.pins = s.pins ∧ t.taken = s.taken

/-! ### Errors and the lifecycle -/

/-- R201: while Finalized, UPD, UPDZ and FINAL fail with EFIN and change nothing but the response and `pc`; NOP, INIT and STAT never
raise it. -/
def Obligations.FinalizedEngineRaisesEfin : Prop :=
  (∀ (s : State) (i : Instr), s.fin = .finalized → (i = .updz ∨ i = .final ∨ ∃ bytes, i = .upd bytes) →
    exec i s = .next { s with rspPending := true, rspStatus := 1, rspData := 0, pc := s.pc + 1 }) ∧
  (∀ (s : State) (i : Instr), (i = .nop ∨ i = .stat ∨ ∃ v, i = .init v) → ∃ t, exec i s = .next t ∧ t.rspStatus = 0)

/-- R202 with R77 to R79: a word with Z != 0, with a reserved OP, or with N != 0 and an OP other than UPD is illegal whatever FIN is:
it is answered with EILL and changes nothing but the response and `pc`. -/
def Obligations.IllegalWordRaisesEill : Prop :=
  ∀ (op : BitVec 4) (z n : BitVec 2) (data : BitVec 32) (s : State),
    (z ≠ 0 ∨ 6 ≤ op.toNat ∨ (op ≠ 2 ∧ n ≠ 0)) →
    (∃ e, decode (op ++ z ++ n ++ data) = .error e) ∧
    command (op ++ z ++ n ++ data) s
      = .next { s with rspPending := true, rspStatus := 2, rspData := 0, pc := s.pc + 1 }

/-- R204, R205: the status of every command word in every state: EILL exactly for the illegal words, EFIN exactly for the legal UPD,
UPDZ and FINAL while Finalized, OK otherwise; the code 3 never (R203). -/
def Obligations.StatusOfEveryCommandWord : Prop :=
  ∀ (op : BitVec 4) (z n : BitVec 2) (data : BitVec 32) (s : State),
    ∃ t, command (op ++ z ++ n ++ data) s = .next t ∧ t.rspPending = true ∧
      t.rspStatus =
        (if z ≠ 0 ∨ 6 ≤ op.toNat ∨ (op ≠ 2 ∧ n ≠ 0) then 2
         else if (op = 2 ∨ op = 3 ∨ op = 4) ∧ s.fin = .finalized then 1
         else 0)

/-- R206: a command that raises an error leaves every piece of state as it was; only `pc` and the response register change. -/
def Obligations.ErrorChangesNoState : Prop :=
  ∀ (w : CmdWord) (s t : State), command w s = .next t → t.rspStatus ≠ 0 →
    t = { s with rspPending := true, rspStatus := t.rspStatus, rspData := 0, pc := s.pc + 1 }

/-- R26: the lifecycle after every command word, from either state: INIT makes it Active, a successful FINAL Finalized, and no other
word changes it; hardware reset makes it Active. -/
def Obligations.LifecycleTransitions : Prop :=
  (∀ (w : CmdWord) (s : State), ∃ t, command w s = .next t ∧
    t.fin = (match decode w with
      | .ok (.init _) => .active
      | .ok .final => .finalized
      | .ok .nop => s.fin
      | .ok (.upd _) => s.fin
      | .ok .updz => s.fin
      | .ok .stat => s.fin
      | .error _ => s.fin)) ∧
  (∀ s : State, s.pinsNow.rst = true → ∃ t, step s = .next t ∧ t.fin = .active)

/-- R27: no step changes VAR but a hardware reset, to SHA-1, and an accepted INIT, to its operand. -/
def Obligations.VariantChangesOnlyByInitOrReset : Prop :=
  ∀ s t : State, step s = .next t → t.var ≠ s.var →
    (s.pinsNow.rst = true ∧ t.var = .sha1) ∨
    (∃ w v, s.offered = some w ∧ s.cmdReady = true ∧ decode w = .ok (.init v) ∧ t.var = v)

/-- R20: no step changes H0..H4 but a hardware reset, an accepted INIT, an accepted UPD that completes a block while Active, and an
accepted FINAL while Active. -/
def Obligations.ChainChangesOnlyByResetAndCompression : Prop :=
  ∀ s t : State, step s = .next t → t.h ≠ s.h →
    s.pinsNow.rst = true ∨
    ∃ w i, s.offered = some w ∧ s.cmdReady = true ∧ decode w = .ok i ∧
      ((∃ v, i = .init v) ∨
       (∃ bytes, i = .upd bytes ∧ s.fin = .active ∧ 64 ≤ s.fill.toNat + bytes.length) ∨
       (i = .final ∧ s.fin = .active))

/-- R216: from a Finalized state, every UPD, UPDZ and FINAL of a sequence without INIT is answered with EFIN, however many came before
it; NOP and STAT still succeed. -/
def Obligations.FinalizeGuardPersistsUntilInit : Prop :=
  ∀ (ws : List CmdWord) (s : State), s.fin = .finalized → (∀ w, w ∈ ws → ∀ v, decode w ≠ .ok (.init v)) →
    responses ws s = ws.map (finalizedReply s)

/-- R33: every command, an illegal one included, advances `pc` by exactly 1; nothing else changes it but hardware reset, to 0; and no
command reads it. -/
def Obligations.PcCountsCompletedCommands : Prop :=
  (∀ (w : CmdWord) (s : State), ∃ t, command w s = .next t ∧ t.pc = s.pc + 1 ∧
    ∀ n, command w { s with pc := n } = .next { t with pc := n + 1 }) ∧
  (∀ s t : State, step s = .next t →
    t.pc = (if s.pinsNow.rst = true then 0
            else if s.cmdReady = true ∧ s.offered.isSome = true then s.pc + 1 else s.pc))

/-! ### Encoding -/

/-- R72 with R73 to R75: the opcode map, on words written out field by field; the operands are DATA[0] for INIT and the first N + 1
bytes of DATA, most significant first, for UPD. -/
def Obligations.OpcodeMapDecodesEachCommand : Prop :=
  ∀ (b0 b1 b2 b3 : Byte) (data : BitVec 31),
    decode (0x0#4 ++ 0#2 ++ 0#2 ++ (b0 ++ b1 ++ b2 ++ b3)) = .ok .nop ∧
    decode (0x1#4 ++ 0#2 ++ 0#2 ++ (data ++ 0#1)) = .ok (.init .sha1) ∧
    decode (0x1#4 ++ 0#2 ++ 0#2 ++ (data ++ 1#1)) = .ok (.init .sha0) ∧
    decode (0x2#4 ++ 0#2 ++ 0#2 ++ (b0 ++ b1 ++ b2 ++ b3)) = .ok (.upd [b0]) ∧
    decode (0x2#4 ++ 0#2 ++ 1#2 ++ (b0 ++ b1 ++ b2 ++ b3)) = .ok (.upd [b0, b1]) ∧
    decode (0x2#4 ++ 0#2 ++ 2#2 ++ (b0 ++ b1 ++ b2 ++ b3)) = .ok (.upd [b0, b1, b2]) ∧
    decode (0x2#4 ++ 0#2 ++ 3#2 ++ (b0 ++ b1 ++ b2 ++ b3)) = .ok (.upd [b0, b1, b2, b3]) ∧
    decode (0x3#4 ++ 0#2 ++ 0#2 ++ (b0 ++ b1 ++ b2 ++ b3)) = .ok .updz ∧
    decode (0x4#4 ++ 0#2 ++ 0#2 ++ (b0 ++ b1 ++ b2 ++ b3)) = .ok .final ∧
    decode (0x5#4 ++ 0#2 ++ 0#2 ++ (b0 ++ b1 ++ b2 ++ b3)) = .ok .stat

/-- Words written out from the spec's encodings (R83) decode to the commands they stand for. -/
def Obligations.WrittenOutWordsDecode : Prop :=
  decode 0x0000000000 = .ok .nop ∧ decode 0x1000000001 = .ok (.init .sha0) ∧
  decode 0x2261626300 = .ok (.upd [0x61, 0x62, 0x63]) ∧ decode 0x3000000000 = .ok .updz ∧
  decode 0x4000000000 = .ok .final ∧ decode 0x5000000000 = .ok .stat

/-- R81: exactly 9 × 2^32 of the 2^40 words decode to legal commands. -/
def Obligations.LegalWordsAreCounted : Prop :=
  ((Finset.range (2 ^ 40)).filter fun n => (decode (BitVec.ofNat 40 n)).isOk = true).card = 9 * 2 ^ 32

/-- R76: an ignored bit of DATA never changes what a word decodes to: all of DATA for an OP other than INIT and UPD, DATA[31:1] for INIT,
the bytes past the count for UPD. -/
def Obligations.IgnoredDataBitsDoNotMatter : Prop :=
  ∀ (op : BitVec 4) (z n : BitVec 2) (data data' : BitVec 32),
    (op = 1 → data.getLsbD 0 = data'.getLsbD 0) →
    (op = 2 → ∀ j, j < 8 * (n.toNat + 1) → data.getMsbD j = data'.getMsbD j) →
    decode (op ++ z ++ n ++ data) = decode (op ++ z ++ n ++ data')

/-- Decoding the encoding of a well-formed instruction gives it back, with every operand at every value (R70 to R75). -/
def Obligations.DecodeInvertsEncode : Prop := ∀ i : Instr, i.wellFormed = true → decode (encode i) = .ok i

/-- What the decoder accepts is well formed, and encoding it gives a word that means the same and has the same OP, Z and N. -/
def Obligations.DecodedInstructionIsWellFormed : Prop :=
  ∀ (w : CmdWord) (i : Instr), decode w = .ok i →
    i.wellFormed = true ∧ decode (encode i) = .ok i ∧ (encode i).extractLsb' 32 8 = w.extractLsb' 32 8

/-! ### The step and the ports -/

/-- R100: when the port is idle and the host offers a word that decodes to an instruction, the step is that instruction, performed once
the word has transferred; when the word is illegal, the step is the EILL response.
The step as one rising edge and the host's words and pin levels as lists are the model's (log entries 5 and 6). -/
def Obligations.StepPerformsOfferedCommand : Prop :=
  ∀ (s : State) (w : CmdWord), s.pinsNow.rst = false → s.rspPending = false → s.offered = some w →
    (∀ i, decode w = .ok i → step s = exec i { s with cmds := s.cmds.tail, pins := s.pins.tail }) ∧
    (∀ e, decode w = .error e →
      step s = .next { s with
        cmds := s.cmds.tail, pins := s.pins.tail,
        rspPending := true, rspStatus := 2, rspData := 0, pc := s.pc + 1 })

/-- R226, R227: while a response is held no command is accepted; it is held unchanged until the host takes it, and then it is what the
host receives, and nothing else of the engine's architectural state changes.
The host's lists are the model's (log entry 5). -/
def Obligations.HeldResponseIsDeliveredOnce : Prop :=
  ∀ s : State, s.pinsNow.rst = false → s.rspPending = true →
    s.cmdReady = false ∧ s.rspValid = true ∧
    (s.pinsNow.rspReady = false → step s = .next { s with pins := s.pins.tail }) ∧
    (s.pinsNow.rspReady = true → ∃ t, step s = .next t ∧ t.rspPending = false ∧
      t.taken = s.taken ++ [⟨s.rspStatus, s.rspData⟩] ∧ t.SameArch s ∧ t.pc = s.pc ∧ t.cmds = s.cmds)

/-- With no command offered and no response to hold, the engine waits and holds its state (R215, R223).  The step as one rising edge is the model's
(log entry 6). -/
def Obligations.EngineWaitsForACommand : Prop :=
  ∀ s : State, s.pinsNow.rst = false → s.rspPending = false → s.offered = none →
    step s = .next { s with pins := s.pins.tail }

/-- R230, R203: every step of every state, whatever command word it accepts, ends in a next state: no fault and no refusal. -/
def Obligations.EveryStepCompletes : Prop := ∀ s : State, ∃ t, step s = .next t

/-- R63: words offered to a host port that takes every response are performed in the order offered, with one response each in the same
order, and the responses are those of the commands composed.
`pins = []` is the host that offers what it has and takes every response (log entry 5). -/
def Obligations.RunServesCommandsInOrder : Prop :=
  ∀ (ws : List CmdWord) (s : State), s.rspPending = false → s.pins = [] → s.cmds = ws →
    ∃ t, core.run (2 * ws.length) s = .next t ∧
      t.taken = s.taken ++ responses ws s ∧ (responses ws s).length = ws.length ∧
      t.cmds = [] ∧ t.rspPending = false ∧ t.pc = s.pc + ws.length

/-! ### Properties of command sequences -/

/-- R110: any two ways to deliver the same message bytes by UPD, with any number of UPDZ, NOP and STAT between them, leave the same state,
but for `pc` and the last response, in either lifecycle state (while Finalized no byte is absorbed).  That even the free values agree is
the model's numbering of them (log entry 12). -/
def Obligations.StreamingIsEquivalent : Prop :=
  ∀ (is js : List Instr) (s : State),
    (∀ i, i ∈ is ++ js → i = .nop ∨ i = .updz ∨ i = .stat ∨ ∃ bytes, i = .upd bytes ∧ i.wellFormed = true) →
    is.flatMap messageOf = js.flatMap messageOf →
    ∃ t u, execAll is s = .next t ∧ execAll js s = .next u ∧ t.lessResponse = u.lessResponse

/-- Two states that agree on the architectural state, and may differ in stale bytes, pipeline and everything else, give the same response
to every command and agree again afterwards (R148, R112): no stale byte reaches a compression. -/
def Obligations.StaleStateNeverMatters : Prop :=
  ∀ (w : CmdWord) (s t : State), s.SameArch t →
    ∃ s' t', command w s = .next s' ∧ command w t = .next t' ∧ s'.SameArch t' ∧
      s'.rspStatus = t'.rspStatus ∧ s'.rspData = t'.rspData

/-- R112: the responses to a command sequence that starts with INIT, or that follows hardware reset, depend only on that sequence. -/
def Obligations.ResponsesDependOnCommandsOnly : Prop :=
  (∀ (w : CmdWord) (v : Variant) (ws : List CmdWord) (s t : State), decode w = .ok (.init v) →
    responses (w :: ws) s = responses (w :: ws) t) ∧
  (∀ (ws : List CmdWord) (s t : State), s.pinsNow.rst = true → t.pinsNow.rst = true →
    ∃ s' t', step s = .next s' ∧ step t = .next t' ∧ responses ws s' = responses ws t')

/-- Headline: from any state with an idle port, the commands `INIT v`, `UPDATE msg`, `FINAL` (R84), encoded and offered on the command
port, are all answered OK, and the last response carries the digest of the padded message folded block by block (R1, R149).
`pins = []` is the host that offers what it has and takes every response (log entry 5). -/
def Obligations.EngineHashesWholeMessage : Prop :=
  ∀ (v : Variant) (msg : List Byte) (s : State), s.rspPending = false → s.pins = [] →
    s.cmds = (hashProgram v msg).map encode →
    ∃ t, core.run (2 * (hashProgram v msg).length) s = .next t ∧
      t.taken = s.taken ++ List.replicate ((hashProgram v msg).length - 1) ⟨0, 0⟩
        ++ [⟨0, digest (hashMessage v msg)⟩]

/-- R224: after hardware reset the engine hashes a SHA-1 message with no INIT: `UPDATE msg`, `FINAL` are all answered OK, and the last
response carries the digest of the padded message folded block by block. -/
def Obligations.HardwareResetIsReadyToHashSha1 : Prop :=
  ∀ (msg : List Byte) (s : State), s.pinsNow.rst = true →
    ∃ t, step s = .next t ∧
      responses ((updateProgram msg ++ [Instr.final]).map encode) t
        = List.replicate (updateProgram msg).length ⟨0, 0⟩ ++ [⟨0, digest (hashMessage .sha1 msg)⟩]

/-- R149: the padded message is a whole number of blocks, one more than the message's full blocks when the tail has at most 55 bytes and
two more otherwise. -/
def Obligations.PaddedMessageIsWholeBlocks : Prop :=
  ∀ msg : List Byte,
    (padMessage msg).length = 64 * (msg.length / 64 + if msg.length % 64 ≤ 55 then 1 else 2)

/-- R84: `UPDATE s` expands into `UPDZ` for the empty sequence and otherwise into UPD commands of 4 bytes, the rest of 1 to 3 bytes in a
last one; they carry the bytes of `s` in order.  On a Finalized engine every one of them fails with EFIN and changes nothing but the
response and `pc`. -/
def Obligations.UpdateProgramDeliversTheBytes : Prop :=
  ∀ msg : List Byte,
    (updateProgram msg).flatMap messageOf = msg ∧
    (∀ i, i ∈ updateProgram msg → i.wellFormed = true) ∧
    (msg = [] → updateProgram msg = [.updz]) ∧
    (msg ≠ [] → (updateProgram msg).length = (msg.length + 3) / 4 ∧
      ∀ k, k < (msg.length + 3) / 4 → (updateProgram msg)[k]? = some (.upd ((msg.drop (4 * k)).take 4))) ∧
    (∀ s : State, s.fin = .finalized →
      execAll (updateProgram msg) s = .next { s with
        rspPending := true, rspStatus := 1, rspData := 0, pc := s.pc + (updateProgram msg).length })

/-! ### The compression function -/

/-- R161: bit i of `ROTL(x, n)` is bit (i - n) mod 32 of x, and ROTL(x, 30) is a rotation right by 2. -/
def Obligations.RotateLeftMovesBits : Prop :=
  ∀ x : Word,
    (∀ n i, 0 < n → n < 32 → i < 32 → (rotl x n).getLsbD i = x.getLsbD ((i + 32 - n) % 32)) ∧
    rotl x 30 = x.rotateRight 2

/-- R168 to R170, R177: choose and majority bit by bit, and their equivalent forms with OR. -/
def Obligations.RoundFunctionsBitByBit : Prop :=
  ∀ (b c d : Word),
    ch b c d = (b &&& c) ||| (~~~b &&& d) ∧ maj b c d = (b &&& c) ||| (b &&& d) ||| (c &&& d) ∧
    ∀ i, i < 32 →
      (ch b c d).getLsbD i = (if b.getLsbD i then c.getLsbD i else d.getLsbD i) ∧
      (maj b c d).getLsbD i
        = decide (2 ≤ (b.getLsbD i).toNat + (c.getLsbD i).toNat + (d.getLsbD i).toNat) ∧
      (parity b c d).getLsbD i = (b.getLsbD i ^^ c.getLsbD i ^^ d.getLsbD i)

/-- R164 to R167: the schedule has 80 words; the first 16 are the block's, and each later one follows the variant's expansion rule. -/
def Obligations.ScheduleFollowsExpansionRule : Prop :=
  ∀ (v : Variant) (blk : Block),
    (schedule v blk).length = 80 ∧
    (∀ i, i < 16 → (schedule v blk).getD i 0
      = blk.getD (4 * i) 0 ++ blk.getD (4 * i + 1) 0 ++ blk.getD (4 * i + 2) 0 ++ blk.getD (4 * i + 3) 0) ∧
    (∀ t, 16 ≤ t → t < 80 →
      let x := (schedule v blk).getD (t - 3) 0 ^^^ (schedule v blk).getD (t - 8) 0 ^^^ (schedule v blk).getD (t - 14) 0
        ^^^ (schedule v blk).getD (t - 16) 0
      (schedule v blk).getD t 0 = if v = .sha1 then (x <<< 1) ||| (x >>> 31) else x)

/-- R172 to R174 with the table of R171: `Compress` seeds the working registers from the chaining value, performs the 80 steps in order
and adds the result into the chaining value. -/
def Obligations.CompressIsEightyStepsAndFeedForward : Prop :=
  ∀ (h : Chain) (blk : Block) (v : Variant), ∃ r : Nat → Working,
    r 0 = ⟨h.h0, h.h1, h.h2, h.h3, h.h4⟩ ∧
    (∀ t, t < 80 → r (t + 1) =
      ⟨rotl (r t).a 5
          + (if t < 20 then ((r t).b &&& (r t).c) ^^^ (~~~(r t).b &&& (r t).d)
             else if t < 40 then (r t).b ^^^ (r t).c ^^^ (r t).d
             else if t < 60 then ((r t).b &&& (r t).c) ^^^ ((r t).b &&& (r t).d) ^^^ ((r t).c &&& (r t).d)
             else (r t).b ^^^ (r t).c ^^^ (r t).d)
          + (r t).e + (schedule v blk).getD t 0
          + (if t < 20 then 0x5A827999#32 else if t < 40 then 0x6ED9EBA1#32 else if t < 60 then 0x8F1BBCDC#32
             else 0xCA62C1D6#32),
        (r t).a, rotl (r t).b 30, (r t).c, (r t).d⟩) ∧
    compress h blk v = ⟨h.h0 + (r 80).a, h.h1 + (r 80).b, h.h2 + (r 80).c, h.h3 + (r 80).d, h.h4 + (r 80).e⟩

/-- R176: the sixteen-word window gives the same W[t] for every t. -/
def Obligations.WindowGivesSameSchedule : Prop :=
  ∀ (v : Variant) (blk : Block) (t : Nat), t < 80 → windowWord v blk t = (schedule v blk).getD t 0

/-- R178: where every expanded sum is 0 or 0xFFFFFFFF the variants have the same schedule and the same compression, as for the all-zero and
the all-0xFF block; for 16 copies of any other word they part at W[19]. -/
def Obligations.VariantsAgreeOnFixedPointBlocks : Prop :=
  (∀ (v : Variant) (blk : Block) (h : Chain),
    (∀ t, 16 ≤ t → t < 80 →
      let x := (schedule v blk).getD (t - 3) 0 ^^^ (schedule v blk).getD (t - 8) 0 ^^^ (schedule v blk).getD (t - 14) 0
        ^^^ (schedule v blk).getD (t - 16) 0
      x = 0x00000000#32 ∨ x = 0xFFFFFFFF#32) →
    schedule .sha1 blk = schedule .sha0 blk ∧ compress h blk .sha1 = compress h blk .sha0) ∧
  (∀ h : Chain, compress h (Vector.replicate 64 0x00) .sha1 = compress h (Vector.replicate 64 0x00) .sha0 ∧
    compress h (Vector.replicate 64 0xFF) .sha1 = compress h (Vector.replicate 64 0xFF) .sha0) ∧
  (∀ (blk : Block) (w : Word), (∀ i, i < 16 → messageWord blk i = w) → w ≠ 0x00000000#32 → w ≠ 0xFFFFFFFF#32 →
    (schedule .sha0 blk).getD 19 0 = w ∧ (schedule .sha1 blk).getD 19 0 ≠ w)

end Statements
end

