-- ==== Sys2Proof/Laws/Memory.lean ====
section
/-! SUPPORT. The block buffer as a list: read after write, and the canonical form that every write keeps. -/

namespace Sys2Proof.Machine.Memory

@[simp] theorem read?_nil (a : Nat) : read? [] a = none := rfl

theorem read?_cons (k : Nat) (c : Byte) (m : Memory) (a : Nat) :
    read? ((k, c) :: m) a = if k = a then some c else read? m a := rfl

/-- A byte written is read back. -/
@[simp] theorem read?_write_same (m : Memory) (a : Nat) (b : Byte) : read? (write m a b) a = some b := by
  induction m with
  | nil => simp [write, read?]
  | cons e m ih =>
    obtain ⟨k, c⟩ := e
    unfold write
    split_ifs with h1 h2
    · simp [read?]
    · simp [read?]
    · simp [read?, Ne.symm h2, ih]

/-- A write leaves every other offset alone. -/
theorem read?_write_other (m : Memory) {a a' : Nat} (b : Byte) (h : a' ≠ a) : read? (write m a b) a' = read? m a' := by
  induction m with
  | nil => simp [write, read?, Ne.symm h]
  | cons e m ih =>
    obtain ⟨k, c⟩ := e
    unfold write
    split_ifs with h1 h2
    · simp [read?, Ne.symm h]
    · subst h2; simp [read?, Ne.symm h]
    · simp [read?, ih]

theorem read?_write (m : Memory) (a a' : Nat) (b : Byte) :
    read? (write m a b) a' = if a' = a then some b else read? m a' := by
  split_ifs with h
  · rw [h, read?_write_same]
  · exact read?_write_other m b h

/-! ### The canonical form -/

theorem wfFrom_nil (lo : Nat) : wfFrom lo [] = true := rfl

theorem wfFrom_cons (lo k : Nat) (c : Byte) (m : Memory) :
    wfFrom lo ((k, c) :: m) = true ↔ lo ≤ k ∧ k < 64 ∧ wfFrom (k + 1) m = true := by
  simp [wfFrom, and_assoc]

theorem wfFrom_write (m : Memory) (lo a : Nat) (b : Byte) (hm : wfFrom lo m = true) (hlo : lo ≤ a) (ha : a < 64) :
    wfFrom lo (write m a b) = true := by
  induction m generalizing lo with
  | nil => simp [write, wfFrom, hlo, ha]
  | cons e m ih =>
    obtain ⟨k, c⟩ := e
    obtain ⟨h1, h2, h3⟩ := (wfFrom_cons _ _ _ _).1 hm
    unfold write
    split_ifs with hlt heq
    · simp only [wfFrom_cons]; exact ⟨hlo, ha, by omega, h2, h3⟩
    · subst heq; exact (wfFrom_cons _ _ _ _).2 ⟨h1, h2, h3⟩
    · exact (wfFrom_cons _ _ _ _).2 ⟨h1, h2, ih _ h3 (by omega)⟩

@[simp] theorem wf_nil : wf [] = true := rfl

/-- A write inside the buffer keeps the canonical form. -/
theorem wf_write (m : Memory) (a : Nat) (b : Byte) (hm : wf m = true) (ha : a < 64) : wf (write m a b) = true :=
  wfFrom_write m 0 a b hm (Nat.zero_le a) ha

theorem read?_of_lt (m : Memory) (lo a : Nat) (hm : wfFrom lo m = true) (ha : a < lo) : read? m a = none := by
  induction m generalizing lo with
  | nil => rfl
  | cons e m ih =>
    obtain ⟨k, c⟩ := e
    obtain ⟨h1, -, h3⟩ := (wfFrom_cons _ _ _ _).1 hm
    rw [read?_cons, if_neg (by omega), ih _ h3 (by omega)]

end Sys2Proof.Machine.Memory
end

