-- ==== Sys2Proof/Laws/State.lean ====
section
/-! SUPPORT. What each update of the state does to each of its fields, one lemma a field.
The unspecified contents of the pipeline have no lemma: nothing is to be known of them. -/

namespace Sys2Proof.Machine.State

variable (s : State)

/-! ### `storeBuf` -/

@[simp] theorem storeBuf_h (a : Nat) (b : Byte) : (s.storeBuf a b).h = s.h := rfl
@[simp] theorem storeBuf_bitlen (a : Nat) (b : Byte) : (s.storeBuf a b).bitlen = s.bitlen := rfl
@[simp] theorem storeBuf_buf (a : Nat) (b : Byte) : (s.storeBuf a b).buf = Memory.write s.buf a b := rfl
@[simp] theorem storeBuf_fill (a : Nat) (b : Byte) : (s.storeBuf a b).fill = s.fill := rfl
@[simp] theorem storeBuf_fin (a : Nat) (b : Byte) : (s.storeBuf a b).fin = s.fin := rfl
@[simp] theorem storeBuf_var (a : Nat) (b : Byte) : (s.storeBuf a b).var = s.var := rfl
@[simp] theorem storeBuf_rspPending (a : Nat) (b : Byte) : (s.storeBuf a b).rspPending = s.rspPending := rfl
@[simp] theorem storeBuf_rspStatus (a : Nat) (b : Byte) : (s.storeBuf a b).rspStatus = s.rspStatus := rfl
@[simp] theorem storeBuf_rspData (a : Nat) (b : Byte) : (s.storeBuf a b).rspData = s.rspData := rfl
@[simp] theorem storeBuf_work (a : Nat) (b : Byte) : (s.storeBuf a b).work = s.work := rfl
@[simp] theorem storeBuf_sched (a : Nat) (b : Byte) : (s.storeBuf a b).sched = s.sched := rfl
@[simp] theorem storeBuf_stepCounter (a : Nat) (b : Byte) : (s.storeBuf a b).stepCounter = s.stepCounter := rfl
@[simp] theorem storeBuf_pc (a : Nat) (b : Byte) : (s.storeBuf a b).pc = s.pc := rfl
@[simp] theorem storeBuf_bufEpoch (a : Nat) (b : Byte) : (s.storeBuf a b).bufEpoch = s.bufEpoch := rfl
@[simp] theorem storeBuf_draws (a : Nat) (b : Byte) : (s.storeBuf a b).draws = s.draws := rfl
@[simp] theorem storeBuf_cmds (a : Nat) (b : Byte) : (s.storeBuf a b).cmds = s.cmds := rfl
@[simp] theorem storeBuf_pins (a : Nat) (b : Byte) : (s.storeBuf a b).pins = s.pins := rfl
@[simp] theorem storeBuf_taken (a : Nat) (b : Byte) : (s.storeBuf a b).taken = s.taken := rfl

/-! ### `discardBuf` -/

@[simp] theorem discardBuf_h : (s.discardBuf).h = s.h := rfl
@[simp] theorem discardBuf_bitlen : (s.discardBuf).bitlen = s.bitlen := rfl
@[simp] theorem discardBuf_buf : (s.discardBuf).buf = [] := rfl
@[simp] theorem discardBuf_fill : (s.discardBuf).fill = s.fill := rfl
@[simp] theorem discardBuf_fin : (s.discardBuf).fin = s.fin := rfl
@[simp] theorem discardBuf_var : (s.discardBuf).var = s.var := rfl
@[simp] theorem discardBuf_rspPending : (s.discardBuf).rspPending = s.rspPending := rfl
@[simp] theorem discardBuf_rspStatus : (s.discardBuf).rspStatus = s.rspStatus := rfl
@[simp] theorem discardBuf_rspData : (s.discardBuf).rspData = s.rspData := rfl
@[simp] theorem discardBuf_work : (s.discardBuf).work = s.work := rfl
@[simp] theorem discardBuf_sched : (s.discardBuf).sched = s.sched := rfl
@[simp] theorem discardBuf_stepCounter : (s.discardBuf).stepCounter = s.stepCounter := rfl
@[simp] theorem discardBuf_pc : (s.discardBuf).pc = s.pc := rfl
@[simp] theorem discardBuf_bufEpoch : (s.discardBuf).bufEpoch = s.bufEpoch + 1 := rfl
@[simp] theorem discardBuf_draws : (s.discardBuf).draws = s.draws := rfl
@[simp] theorem discardBuf_cmds : (s.discardBuf).cmds = s.cmds := rfl
@[simp] theorem discardBuf_pins : (s.discardBuf).pins = s.pins := rfl
@[simp] theorem discardBuf_taken : (s.discardBuf).taken = s.taken := rfl

/-! ### `releasePipeline` -/

@[simp] theorem releasePipeline_h : (s.releasePipeline).h = s.h := rfl
@[simp] theorem releasePipeline_bitlen : (s.releasePipeline).bitlen = s.bitlen := rfl
@[simp] theorem releasePipeline_buf : (s.releasePipeline).buf = s.buf := rfl
@[simp] theorem releasePipeline_fill : (s.releasePipeline).fill = s.fill := rfl
@[simp] theorem releasePipeline_fin : (s.releasePipeline).fin = s.fin := rfl
@[simp] theorem releasePipeline_var : (s.releasePipeline).var = s.var := rfl
@[simp] theorem releasePipeline_rspPending : (s.releasePipeline).rspPending = s.rspPending := rfl
@[simp] theorem releasePipeline_rspStatus : (s.releasePipeline).rspStatus = s.rspStatus := rfl
@[simp] theorem releasePipeline_rspData : (s.releasePipeline).rspData = s.rspData := rfl
@[simp] theorem releasePipeline_stepCounter : (s.releasePipeline).stepCounter = Config.freeStep s.draws := rfl
@[simp] theorem releasePipeline_pc : (s.releasePipeline).pc = s.pc := rfl
@[simp] theorem releasePipeline_bufEpoch : (s.releasePipeline).bufEpoch = s.bufEpoch := rfl
@[simp] theorem releasePipeline_draws : (s.releasePipeline).draws = s.draws + 1 := rfl
@[simp] theorem releasePipeline_cmds : (s.releasePipeline).cmds = s.cmds := rfl
@[simp] theorem releasePipeline_pins : (s.releasePipeline).pins = s.pins := rfl
@[simp] theorem releasePipeline_taken : (s.releasePipeline).taken = s.taken := rfl

/-! ### `compressBlocks` -/

@[simp] theorem compressBlocks_h (blocks : List Block) : (s.compressBlocks blocks).h = blocks.foldl (fun h blk => compress h blk s.var) s.h := rfl
@[simp] theorem compressBlocks_bitlen (blocks : List Block) : (s.compressBlocks blocks).bitlen = s.bitlen := rfl
@[simp] theorem compressBlocks_buf (blocks : List Block) : (s.compressBlocks blocks).buf = s.buf := rfl
@[simp] theorem compressBlocks_fill (blocks : List Block) : (s.compressBlocks blocks).fill = s.fill := rfl
@[simp] theorem compressBlocks_fin (blocks : List Block) : (s.compressBlocks blocks).fin = s.fin := rfl
@[simp] theorem compressBlocks_var (blocks : List Block) : (s.compressBlocks blocks).var = s.var := rfl
@[simp] theorem compressBlocks_rspPending (blocks : List Block) : (s.compressBlocks blocks).rspPending = s.rspPending := rfl
@[simp] theorem compressBlocks_rspStatus (blocks : List Block) : (s.compressBlocks blocks).rspStatus = s.rspStatus := rfl
@[simp] theorem compressBlocks_rspData (blocks : List Block) : (s.compressBlocks blocks).rspData = s.rspData := rfl
@[simp] theorem compressBlocks_stepCounter (blocks : List Block) : (s.compressBlocks blocks).stepCounter = Config.freeStep s.draws := rfl
@[simp] theorem compressBlocks_pc (blocks : List Block) : (s.compressBlocks blocks).pc = s.pc := rfl
@[simp] theorem compressBlocks_bufEpoch (blocks : List Block) : (s.compressBlocks blocks).bufEpoch = s.bufEpoch := rfl
@[simp] theorem compressBlocks_draws (blocks : List Block) : (s.compressBlocks blocks).draws = s.draws + 1 := rfl
@[simp] theorem compressBlocks_cmds (blocks : List Block) : (s.compressBlocks blocks).cmds = s.cmds := rfl
@[simp] theorem compressBlocks_pins (blocks : List Block) : (s.compressBlocks blocks).pins = s.pins := rfl
@[simp] theorem compressBlocks_taken (blocks : List Block) : (s.compressBlocks blocks).taken = s.taken := rfl

/-! ### `compressBuf` -/

@[simp] theorem compressBuf_h : (s.compressBuf).h = compress s.h s.block s.var := rfl
@[simp] theorem compressBuf_bitlen : (s.compressBuf).bitlen = s.bitlen := rfl
@[simp] theorem compressBuf_buf : (s.compressBuf).buf = s.buf := rfl
@[simp] theorem compressBuf_fill : (s.compressBuf).fill = s.fill := rfl
@[simp] theorem compressBuf_fin : (s.compressBuf).fin = s.fin := rfl
@[simp] theorem compressBuf_var : (s.compressBuf).var = s.var := rfl
@[simp] theorem compressBuf_rspPending : (s.compressBuf).rspPending = s.rspPending := rfl
@[simp] theorem compressBuf_rspStatus : (s.compressBuf).rspStatus = s.rspStatus := rfl
@[simp] theorem compressBuf_rspData : (s.compressBuf).rspData = s.rspData := rfl
@[simp] theorem compressBuf_stepCounter : (s.compressBuf).stepCounter = Config.freeStep s.draws := rfl
@[simp] theorem compressBuf_pc : (s.compressBuf).pc = s.pc := rfl
@[simp] theorem compressBuf_bufEpoch : (s.compressBuf).bufEpoch = s.bufEpoch := rfl
@[simp] theorem compressBuf_draws : (s.compressBuf).draws = s.draws + 1 := rfl
@[simp] theorem compressBuf_cmds : (s.compressBuf).cmds = s.cmds := rfl
@[simp] theorem compressBuf_pins : (s.compressBuf).pins = s.pins := rfl
@[simp] theorem compressBuf_taken : (s.compressBuf).taken = s.taken := rfl

/-! ### `respond` -/

@[simp] theorem respond_h (st : Status) (d : RspData) : (s.respond st d).h = s.h := rfl
@[simp] theorem respond_bitlen (st : Status) (d : RspData) : (s.respond st d).bitlen = s.bitlen := rfl
@[simp] theorem respond_buf (st : Status) (d : RspData) : (s.respond st d).buf = s.buf := rfl
@[simp] theorem respond_fill (st : Status) (d : RspData) : (s.respond st d).fill = s.fill := rfl
@[simp] theorem respond_fin (st : Status) (d : RspData) : (s.respond st d).fin = s.fin := rfl
@[simp] theorem respond_var (st : Status) (d : RspData) : (s.respond st d).var = s.var := rfl
@[simp] theorem respond_rspPending (st : Status) (d : RspData) : (s.respond st d).rspPending = true := rfl
@[simp] theorem respond_rspStatus (st : Status) (d : RspData) : (s.respond st d).rspStatus = st.code := rfl
@[simp] theorem respond_rspData (st : Status) (d : RspData) : (s.respond st d).rspData = d := rfl
@[simp] theorem respond_work (st : Status) (d : RspData) : (s.respond st d).work = s.work := rfl
@[simp] theorem respond_sched (st : Status) (d : RspData) : (s.respond st d).sched = s.sched := rfl
@[simp] theorem respond_stepCounter (st : Status) (d : RspData) : (s.respond st d).stepCounter = s.stepCounter := rfl
@[simp] theorem respond_pc (st : Status) (d : RspData) : (s.respond st d).pc = s.pc + 1 := rfl
@[simp] theorem respond_bufEpoch (st : Status) (d : RspData) : (s.respond st d).bufEpoch = s.bufEpoch := rfl
@[simp] theorem respond_draws (st : Status) (d : RspData) : (s.respond st d).draws = s.draws := rfl
@[simp] theorem respond_cmds (st : Status) (d : RspData) : (s.respond st d).cmds = s.cmds := rfl
@[simp] theorem respond_pins (st : Status) (d : RspData) : (s.respond st d).pins = s.pins := rfl
@[simp] theorem respond_taken (st : Status) (d : RspData) : (s.respond st d).taken = s.taken := rfl

/-! ### `takeResponse` -/

@[simp] theorem takeResponse_h : (s.takeResponse).h = s.h := rfl
@[simp] theorem takeResponse_bitlen : (s.takeResponse).bitlen = s.bitlen := rfl
@[simp] theorem takeResponse_buf : (s.takeResponse).buf = s.buf := rfl
@[simp] theorem takeResponse_fill : (s.takeResponse).fill = s.fill := rfl
@[simp] theorem takeResponse_fin : (s.takeResponse).fin = s.fin := rfl
@[simp] theorem takeResponse_var : (s.takeResponse).var = s.var := rfl
@[simp] theorem takeResponse_rspPending : (s.takeResponse).rspPending = false := rfl
@[simp] theorem takeResponse_rspStatus : (s.takeResponse).rspStatus = Config.freeStatus s.draws := rfl
@[simp] theorem takeResponse_rspData : (s.takeResponse).rspData = Config.freeData s.draws := rfl
@[simp] theorem takeResponse_work : (s.takeResponse).work = s.work := rfl
@[simp] theorem takeResponse_sched : (s.takeResponse).sched = s.sched := rfl
@[simp] theorem takeResponse_stepCounter : (s.takeResponse).stepCounter = s.stepCounter := rfl
@[simp] theorem takeResponse_pc : (s.takeResponse).pc = s.pc := rfl
@[simp] theorem takeResponse_bufEpoch : (s.takeResponse).bufEpoch = s.bufEpoch := rfl
@[simp] theorem takeResponse_draws : (s.takeResponse).draws = s.draws + 1 := rfl
@[simp] theorem takeResponse_cmds : (s.takeResponse).cmds = s.cmds := rfl
@[simp] theorem takeResponse_pins : (s.takeResponse).pins = s.pins := rfl
@[simp] theorem takeResponse_taken : (s.takeResponse).taken = s.taken ++ [⟨s.rspStatus, s.rspData⟩] := rfl

/-! ### `initialise` -/

@[simp] theorem initialise_h (v : Variant) : (s.initialise v).h = initialChain := rfl
@[simp] theorem initialise_bitlen (v : Variant) : (s.initialise v).bitlen = 0 := rfl
@[simp] theorem initialise_buf (v : Variant) : (s.initialise v).buf = s.buf := rfl
@[simp] theorem initialise_fill (v : Variant) : (s.initialise v).fill = 0 := rfl
@[simp] theorem initialise_fin (v : Variant) : (s.initialise v).fin = .active := rfl
@[simp] theorem initialise_var (v : Variant) : (s.initialise v).var = v := rfl
@[simp] theorem initialise_rspPending (v : Variant) : (s.initialise v).rspPending = s.rspPending := rfl
@[simp] theorem initialise_rspStatus (v : Variant) : (s.initialise v).rspStatus = s.rspStatus := rfl
@[simp] theorem initialise_rspData (v : Variant) : (s.initialise v).rspData = s.rspData := rfl
@[simp] theorem initialise_stepCounter (v : Variant) : (s.initialise v).stepCounter = Config.freeStep s.draws := rfl
@[simp] theorem initialise_pc (v : Variant) : (s.initialise v).pc = s.pc := rfl
@[simp] theorem initialise_bufEpoch (v : Variant) : (s.initialise v).bufEpoch = s.bufEpoch := rfl
@[simp] theorem initialise_draws (v : Variant) : (s.initialise v).draws = s.draws + 1 := rfl
@[simp] theorem initialise_cmds (v : Variant) : (s.initialise v).cmds = s.cmds := rfl
@[simp] theorem initialise_pins (v : Variant) : (s.initialise v).pins = s.pins := rfl
@[simp] theorem initialise_taken (v : Variant) : (s.initialise v).taken = s.taken := rfl

/-! ### `hardwareReset` -/

@[simp] theorem hardwareReset_h : (s.hardwareReset).h = initialChain := rfl
@[simp] theorem hardwareReset_bitlen : (s.hardwareReset).bitlen = 0 := rfl
@[simp] theorem hardwareReset_buf : (s.hardwareReset).buf = [] := rfl
@[simp] theorem hardwareReset_fill : (s.hardwareReset).fill = 0 := rfl
@[simp] theorem hardwareReset_fin : (s.hardwareReset).fin = .active := rfl
@[simp] theorem hardwareReset_var : (s.hardwareReset).var = .sha1 := rfl
@[simp] theorem hardwareReset_rspPending : (s.hardwareReset).rspPending = false := rfl
@[simp] theorem hardwareReset_rspStatus : (s.hardwareReset).rspStatus = Config.freeStatus s.draws := rfl
@[simp] theorem hardwareReset_rspData : (s.hardwareReset).rspData = Config.freeData s.draws := rfl
@[simp] theorem hardwareReset_stepCounter : (s.hardwareReset).stepCounter = Config.freeStep s.draws := rfl
@[simp] theorem hardwareReset_pc : (s.hardwareReset).pc = 0 := rfl
@[simp] theorem hardwareReset_bufEpoch : (s.hardwareReset).bufEpoch = s.bufEpoch + 1 := rfl
@[simp] theorem hardwareReset_draws : (s.hardwareReset).draws = s.draws + 1 := rfl
@[simp] theorem hardwareReset_cmds : (s.hardwareReset).cmds = s.cmds := rfl
@[simp] theorem hardwareReset_pins : (s.hardwareReset).pins = s.pins := rfl
@[simp] theorem hardwareReset_taken : (s.hardwareReset).taken = s.taken := rfl

/-! ### `afterFinal` -/

@[simp] theorem afterFinal_h : (s.afterFinal).h = s.padBlocks.foldl (fun h blk => compress h blk s.var) s.h := rfl
@[simp] theorem afterFinal_bitlen : (s.afterFinal).bitlen = s.bitlen := rfl
@[simp] theorem afterFinal_buf : (s.afterFinal).buf = [] := rfl
@[simp] theorem afterFinal_fill : (s.afterFinal).fill = 0 := rfl
@[simp] theorem afterFinal_fin : (s.afterFinal).fin = .finalized := rfl
@[simp] theorem afterFinal_var : (s.afterFinal).var = s.var := rfl
@[simp] theorem afterFinal_rspPending : (s.afterFinal).rspPending = s.rspPending := rfl
@[simp] theorem afterFinal_rspStatus : (s.afterFinal).rspStatus = s.rspStatus := rfl
@[simp] theorem afterFinal_rspData : (s.afterFinal).rspData = s.rspData := rfl
@[simp] theorem afterFinal_stepCounter : (s.afterFinal).stepCounter = Config.freeStep s.draws := rfl
@[simp] theorem afterFinal_pc : (s.afterFinal).pc = s.pc := rfl
@[simp] theorem afterFinal_bufEpoch : (s.afterFinal).bufEpoch = s.bufEpoch + 1 := rfl
@[simp] theorem afterFinal_draws : (s.afterFinal).draws = s.draws + 1 := rfl
@[simp] theorem afterFinal_cmds : (s.afterFinal).cmds = s.cmds := rfl
@[simp] theorem afterFinal_pins : (s.afterFinal).pins = s.pins := rfl
@[simp] theorem afterFinal_taken : (s.afterFinal).taken = s.taken := rfl

/-! ### `nextPins` -/

@[simp] theorem nextPins_h : (s.nextPins).h = s.h := rfl
@[simp] theorem nextPins_bitlen : (s.nextPins).bitlen = s.bitlen := rfl
@[simp] theorem nextPins_buf : (s.nextPins).buf = s.buf := rfl
@[simp] theorem nextPins_fill : (s.nextPins).fill = s.fill := rfl
@[simp] theorem nextPins_fin : (s.nextPins).fin = s.fin := rfl
@[simp] theorem nextPins_var : (s.nextPins).var = s.var := rfl
@[simp] theorem nextPins_rspPending : (s.nextPins).rspPending = s.rspPending := rfl
@[simp] theorem nextPins_rspStatus : (s.nextPins).rspStatus = s.rspStatus := rfl
@[simp] theorem nextPins_rspData : (s.nextPins).rspData = s.rspData := rfl
@[simp] theorem nextPins_work : (s.nextPins).work = s.work := rfl
@[simp] theorem nextPins_sched : (s.nextPins).sched = s.sched := rfl
@[simp] theorem nextPins_stepCounter : (s.nextPins).stepCounter = s.stepCounter := rfl
@[simp] theorem nextPins_pc : (s.nextPins).pc = s.pc := rfl
@[simp] theorem nextPins_bufEpoch : (s.nextPins).bufEpoch = s.bufEpoch := rfl
@[simp] theorem nextPins_draws : (s.nextPins).draws = s.draws := rfl
@[simp] theorem nextPins_cmds : (s.nextPins).cmds = s.cmds := rfl
@[simp] theorem nextPins_pins : (s.nextPins).pins = s.pins.tail := rfl
@[simp] theorem nextPins_taken : (s.nextPins).taken = s.taken := rfl

/-! ### `nextCmd` -/

@[simp] theorem nextCmd_h : (s.nextCmd).h = s.h := rfl
@[simp] theorem nextCmd_bitlen : (s.nextCmd).bitlen = s.bitlen := rfl
@[simp] theorem nextCmd_buf : (s.nextCmd).buf = s.buf := rfl
@[simp] theorem nextCmd_fill : (s.nextCmd).fill = s.fill := rfl
@[simp] theorem nextCmd_fin : (s.nextCmd).fin = s.fin := rfl
@[simp] theorem nextCmd_var : (s.nextCmd).var = s.var := rfl
@[simp] theorem nextCmd_rspPending : (s.nextCmd).rspPending = s.rspPending := rfl
@[simp] theorem nextCmd_rspStatus : (s.nextCmd).rspStatus = s.rspStatus := rfl
@[simp] theorem nextCmd_rspData : (s.nextCmd).rspData = s.rspData := rfl
@[simp] theorem nextCmd_work : (s.nextCmd).work = s.work := rfl
@[simp] theorem nextCmd_sched : (s.nextCmd).sched = s.sched := rfl
@[simp] theorem nextCmd_stepCounter : (s.nextCmd).stepCounter = s.stepCounter := rfl
@[simp] theorem nextCmd_pc : (s.nextCmd).pc = s.pc := rfl
@[simp] theorem nextCmd_bufEpoch : (s.nextCmd).bufEpoch = s.bufEpoch := rfl
@[simp] theorem nextCmd_draws : (s.nextCmd).draws = s.draws := rfl
@[simp] theorem nextCmd_cmds : (s.nextCmd).cmds = s.cmds.tail := rfl
@[simp] theorem nextCmd_pins : (s.nextCmd).pins = s.pins := rfl
@[simp] theorem nextCmd_taken : (s.nextCmd).taken = s.taken := rfl

/-! ### `offer` -/

@[simp] theorem offer_h (w : CmdWord) : (s.offer w).h = s.h := rfl
@[simp] theorem offer_bitlen (w : CmdWord) : (s.offer w).bitlen = s.bitlen := rfl
@[simp] theorem offer_buf (w : CmdWord) : (s.offer w).buf = s.buf := rfl
@[simp] theorem offer_fill (w : CmdWord) : (s.offer w).fill = s.fill := rfl
@[simp] theorem offer_fin (w : CmdWord) : (s.offer w).fin = s.fin := rfl
@[simp] theorem offer_var (w : CmdWord) : (s.offer w).var = s.var := rfl
@[simp] theorem offer_rspPending (w : CmdWord) : (s.offer w).rspPending = false := rfl
@[simp] theorem offer_rspStatus (w : CmdWord) : (s.offer w).rspStatus = s.rspStatus := rfl
@[simp] theorem offer_rspData (w : CmdWord) : (s.offer w).rspData = s.rspData := rfl
@[simp] theorem offer_work (w : CmdWord) : (s.offer w).work = s.work := rfl
@[simp] theorem offer_sched (w : CmdWord) : (s.offer w).sched = s.sched := rfl
@[simp] theorem offer_stepCounter (w : CmdWord) : (s.offer w).stepCounter = s.stepCounter := rfl
@[simp] theorem offer_pc (w : CmdWord) : (s.offer w).pc = s.pc := rfl
@[simp] theorem offer_bufEpoch (w : CmdWord) : (s.offer w).bufEpoch = s.bufEpoch := rfl
@[simp] theorem offer_draws (w : CmdWord) : (s.offer w).draws = s.draws := rfl
@[simp] theorem offer_cmds (w : CmdWord) : (s.offer w).cmds = w :: s.cmds := rfl
@[simp] theorem offer_pins (w : CmdWord) : (s.offer w).pins = idlePins :: s.pins := rfl
@[simp] theorem offer_taken (w : CmdWord) : (s.offer w).taken = s.taken := rfl

end Sys2Proof.Machine.State
end

