-- ==== Sys2Proof/Laws/Ops.lean ====
section
/-! SUPPORT. What each shared operation over the buffer and the registers can do, said once: the provers cite these and do not unfold
the operations. -/

namespace Sys2Proof.Machine

variable (s : State)

/-! ### Storing bytes -/

@[simp] theorem State.storeBytes_nil (a : Nat) : s.storeBytes a [] = s := rfl

@[simp] theorem State.storeBytes_cons (a : Nat) (b : Byte) (bs : List Byte) :
    s.storeBytes a (b :: bs) = (s.storeBuf a b).storeBytes (a + 1) bs := rfl

/-- Storing bytes changes BUF and nothing else. -/
theorem State.storeBytes_frame (a : Nat) (bs : List Byte) :
    s.storeBytes a bs = { s with buf := (s.storeBytes a bs).buf } := by
  induction bs generalizing s a with
  | nil => rfl
  | cons b bs ih => rw [storeBytes_cons, ih]; rfl

theorem State.storeBytes_append (a : Nat) (bs cs : List Byte) :
    s.storeBytes a (bs ++ cs) = (s.storeBytes a bs).storeBytes (a + bs.length) cs := by
  induction bs generalizing s a with
  | nil => rfl
  | cons b bs ih =>
    rw [List.cons_append, storeBytes_cons, ih, storeBytes_cons, List.length_cons, Nat.add_assoc, Nat.add_comm 1]

@[simp] theorem State.storeBytes_h (a : Nat) (bs : List Byte) : (s.storeBytes a bs).h = s.h := by rw [storeBytes_frame]
@[simp] theorem State.storeBytes_bitlen (a : Nat) (bs : List Byte) : (s.storeBytes a bs).bitlen = s.bitlen := by
  rw [storeBytes_frame]
@[simp] theorem State.storeBytes_fill (a : Nat) (bs : List Byte) : (s.storeBytes a bs).fill = s.fill := by
  rw [storeBytes_frame]
@[simp] theorem State.storeBytes_fin (a : Nat) (bs : List Byte) : (s.storeBytes a bs).fin = s.fin := by rw [storeBytes_frame]
@[simp] theorem State.storeBytes_var (a : Nat) (bs : List Byte) : (s.storeBytes a bs).var = s.var := by rw [storeBytes_frame]
@[simp] theorem State.storeBytes_rspPending (a : Nat) (bs : List Byte) :
    (s.storeBytes a bs).rspPending = s.rspPending := by rw [storeBytes_frame]
@[simp] theorem State.storeBytes_rspStatus (a : Nat) (bs : List Byte) :
    (s.storeBytes a bs).rspStatus = s.rspStatus := by rw [storeBytes_frame]
@[simp] theorem State.storeBytes_rspData (a : Nat) (bs : List Byte) :
    (s.storeBytes a bs).rspData = s.rspData := by rw [storeBytes_frame]
@[simp] theorem State.storeBytes_work (a : Nat) (bs : List Byte) : (s.storeBytes a bs).work = s.work := by
  rw [storeBytes_frame]
@[simp] theorem State.storeBytes_sched (a : Nat) (bs : List Byte) : (s.storeBytes a bs).sched = s.sched := by
  rw [storeBytes_frame]
@[simp] theorem State.storeBytes_stepCounter (a : Nat) (bs : List Byte) :
    (s.storeBytes a bs).stepCounter = s.stepCounter := by rw [storeBytes_frame]
@[simp] theorem State.storeBytes_pc (a : Nat) (bs : List Byte) : (s.storeBytes a bs).pc = s.pc := by rw [storeBytes_frame]
@[simp] theorem State.storeBytes_bufEpoch (a : Nat) (bs : List Byte) :
    (s.storeBytes a bs).bufEpoch = s.bufEpoch := by rw [storeBytes_frame]
@[simp] theorem State.storeBytes_draws (a : Nat) (bs : List Byte) : (s.storeBytes a bs).draws = s.draws := by
  rw [storeBytes_frame]
@[simp] theorem State.storeBytes_cmds (a : Nat) (bs : List Byte) : (s.storeBytes a bs).cmds = s.cmds := by
  rw [storeBytes_frame]
@[simp] theorem State.storeBytes_pins (a : Nat) (bs : List Byte) : (s.storeBytes a bs).pins = s.pins := by
  rw [storeBytes_frame]
@[simp] theorem State.storeBytes_taken (a : Nat) (bs : List Byte) : (s.storeBytes a bs).taken = s.taken := by
  rw [storeBytes_frame]

/-- Storing inside the buffer keeps its canonical form. -/
theorem State.storeBytes_wf (a : Nat) (bs : List Byte) (h : Memory.wf s.buf = true) (ha : a + bs.length ≤ 64) :
    Memory.wf (s.storeBytes a bs).buf = true := by
  induction bs generalizing s a with
  | nil => exact h
  | cons b bs ih =>
    rw [List.length_cons] at ha
    exact ih _ _ (Memory.wf_write _ _ _ h (by omega)) (by omega)

/-! ### Reading bytes -/

@[simp] theorem State.readBuf_storeBuf_same (a : Nat) (b : Byte) : (s.storeBuf a b).readBuf a = b := by
  simp [State.readBuf]

theorem State.readBuf_storeBuf (a a' : Nat) (b : Byte) :
    (s.storeBuf a b).readBuf a' = if a' = a then b else s.readBuf a' := by
  unfold State.readBuf
  rw [State.storeBuf_buf, State.storeBuf_bufEpoch, Memory.read?_write]
  split_ifs <;> rfl

/-- Reading after storing bytes: the stored byte inside their range, the old one outside. -/
theorem State.readBuf_storeBytes (a a' : Nat) (bs : List Byte) :
    (s.storeBytes a bs).readBuf a' = if a ≤ a' ∧ a' < a + bs.length then bs.getD (a' - a) 0 else s.readBuf a' := by
  induction bs generalizing s a with
  | nil => rw [storeBytes_nil, if_neg (by simp only [List.length_nil]; omega)]
  | cons b bs ih =>
    rw [storeBytes_cons, ih, State.readBuf_storeBuf, List.length_cons]
    by_cases h1 : a + 1 ≤ a' ∧ a' < a + 1 + bs.length
    · rw [if_pos h1, if_pos (by omega), show a' - a = (a' - (a + 1)) + 1 by omega, List.getD_cons_succ]
    · rw [if_neg h1]
      by_cases h2 : a' = a
      · subst h2; simp
      · rw [if_neg h2, if_neg (by omega)]

/-- A byte is listed after storing bytes if it was stored or was listed before. -/
theorem State.read?_storeBytes_isSome (a a' : Nat) (bs : List Byte)
    (h : (a ≤ a' ∧ a' < a + bs.length) ∨ (Memory.read? s.buf a').isSome = true) :
    (Memory.read? (s.storeBytes a bs).buf a').isSome = true := by
  induction bs generalizing s a with
  | nil =>
    rcases h with h | h
    · simp only [List.length_nil] at h; omega
    · exact h
  | cons b bs ih =>
    rw [storeBytes_cons]
    apply ih
    rw [State.storeBuf_buf, Memory.read?_write]
    rw [List.length_cons] at h
    by_cases h2 : a' = a
    · right; simp [h2]
    · rcases h with h | h
      · left; omega
      · right; rw [if_neg h2]; exact h

/-- Byte i of the block `Compress` reads. -/
@[simp] theorem State.getElem_block (i : Nat) (h : i < 64) : s.block[i] = s.readBuf i := by
  simp [State.block]

/-- A byte of a block, read with a default or without. -/
theorem getD_eq_getElem (blk : Block) (i : Nat) (h : i < 64) : blk.getD i 0 = blk[i] := by
  unfold Vector.getD
  simp [h]

theorem State.getD_block (i : Nat) (h : i < 64) : s.block.getD i 0 = s.readBuf i := by
  rw [getD_eq_getElem _ i h, s.getElem_block i h]

/-- Message word i of the block `Compress` reads, from the bytes of BUF (R53). -/
theorem State.messageWord_block (i : Nat) (h : i < 16) :
    messageWord s.block i
      = s.readBuf (4 * i) ++ s.readBuf (4 * i + 1) ++ s.readBuf (4 * i + 2) ++ s.readBuf (4 * i + 3) := by
  unfold messageWord beWord
  rw [s.getD_block _ (by omega), s.getD_block _ (by omega), s.getD_block _ (by omega), s.getD_block _ (by omega)]

/-- What BUF reads as depends on its bytes and on the epoch of its stale bytes alone. -/
theorem State.readBuf_congr (t : State) (h : s.buf = t.buf) (he : s.bufEpoch = t.bufEpoch) (a : Nat) :
    s.readBuf a = t.readBuf a := by
  unfold State.readBuf; rw [h, he]

@[simp] theorem State.readBuf_respond (st : Status) (d : RspData) (a : Nat) : (s.respond st d).readBuf a = s.readBuf a := rfl

@[simp] theorem State.readBuf_nextPins (a : Nat) : s.nextPins.readBuf a = s.readBuf a := rfl

@[simp] theorem State.readBuf_nextCmd (a : Nat) : s.nextCmd.readBuf a = s.readBuf a := rfl

@[simp] theorem State.block_respond (st : Status) (d : RspData) : (s.respond st d).block = s.block := rfl

/-- Two states whose buffers read alike give `Compress` the same block. -/
theorem State.block_congr (t : State) (h : ∀ a, a < 64 → s.readBuf a = t.readBuf a) : s.block = t.block := by
  ext i hi
  simp [h i hi]

/-! ### Counting -/

/-- BITLEN after one byte and `n` more. -/
theorem bitlen_add_succ (b : Word64) (n : Nat) :
    b + 8 + BitVec.ofNat 64 (8 * n) = b + BitVec.ofNat 64 (8 * (n + 1)) := by
  rw [BitVec.add_assoc, Nat.mul_add, Nat.add_comm, BitVec.ofNat_add]
  rfl

/-- FILL after one byte and `n` more. -/
theorem fill_add_succ (f : BitVec 6) (n : Nat) : f + 1 + BitVec.ofNat 6 n = f + BitVec.ofNat 6 (n + 1) := by
  rw [BitVec.add_assoc, Nat.add_comm, BitVec.ofNat_add]
  rfl

/-- FILL counts without wrapping below 63. -/
theorem fill_succ_toNat (f : BitVec 6) (h : f ≠ 63) : (f + 1).toNat = f.toNat + 1 := by
  have h63 : f.toNat ≠ 63 := fun h0 => h (BitVec.eq_of_toNat_eq h0)
  have := f.isLt
  rw [BitVec.toNat_add, show (1 : BitVec 6).toNat = 1 from rfl]
  omega

/-! ### Absorbing bytes -/

@[simp] theorem State.absorbAll_nil : s.absorbAll [] = s := rfl

@[simp] theorem State.absorbAll_cons (x : Byte) (xs : List Byte) : s.absorbAll (x :: xs) = (s.absorb x).absorbAll xs := rfl

theorem State.absorbAll_append (xs ys : List Byte) : s.absorbAll (xs ++ ys) = (s.absorbAll xs).absorbAll ys := by
  induction xs generalizing s with
  | nil => rfl
  | cons x xs ih => exact ih _

/-- Absorbing a byte that does not complete the block. -/
theorem State.absorb_of_ne (x : Byte) (h : s.fill ≠ 63) :
    s.absorb x
      = { s with buf := Memory.write s.buf s.fill.toNat x, bitlen := s.bitlen + 8, fill := s.fill + 1 } := by
  unfold State.absorb
  rw [if_neg h]
  rfl

/-- Absorbing the byte that completes the block. -/
theorem State.absorb_of_eq (x : Byte) (h : s.fill = 63) :
    s.absorb x = 
        { (s.storeBuf 63 x).compressBuf.discardBuf with bitlen := s.bitlen + 8, fill := 0 } := by
  unfold State.absorb
  rw [if_pos h, h]
  rfl

@[simp] theorem State.absorb_bitlen (x : Byte) : (s.absorb x).bitlen = s.bitlen + 8 := by
  by_cases h : s.fill = 63
  · simp [s.absorb_of_eq x h]
  · simp [s.absorb_of_ne x h]

@[simp] theorem State.absorb_fin (x : Byte) : (s.absorb x).fin = s.fin := by
  by_cases h : s.fill = 63
  · simp [s.absorb_of_eq x h]
  · simp [s.absorb_of_ne x h]

@[simp] theorem State.absorb_var (x : Byte) : (s.absorb x).var = s.var := by
  by_cases h : s.fill = 63
  · simp [s.absorb_of_eq x h]
  · simp [s.absorb_of_ne x h]

@[simp] theorem State.absorb_pc (x : Byte) : (s.absorb x).pc = s.pc := by
  by_cases h : s.fill = 63
  · simp [s.absorb_of_eq x h]
  · simp [s.absorb_of_ne x h]

@[simp] theorem State.absorb_cmds (x : Byte) : (s.absorb x).cmds = s.cmds := by
  by_cases h : s.fill = 63
  · simp [s.absorb_of_eq x h]
  · simp [s.absorb_of_ne x h]

@[simp] theorem State.absorb_pins (x : Byte) : (s.absorb x).pins = s.pins := by
  by_cases h : s.fill = 63
  · simp [s.absorb_of_eq x h]
  · simp [s.absorb_of_ne x h]

@[simp] theorem State.absorb_taken (x : Byte) : (s.absorb x).taken = s.taken := by
  by_cases h : s.fill = 63
  · simp [s.absorb_of_eq x h]
  · simp [s.absorb_of_ne x h]

/-- FILL counts modulo 64, the block's completion included. -/
theorem State.absorb_fill (x : Byte) : (s.absorb x).fill = s.fill + 1 := by
  by_cases h : s.fill = 63
  · simp only [s.absorb_of_eq x h, h]; rfl
  · simp [s.absorb_of_ne x h]

@[simp] theorem State.absorbAll_fin (xs : List Byte) : (s.absorbAll xs).fin = s.fin := by
  induction xs generalizing s with
  | nil => rfl
  | cons x xs ih => rw [absorbAll_cons, ih, absorb_fin]

@[simp] theorem State.absorbAll_var (xs : List Byte) : (s.absorbAll xs).var = s.var := by
  induction xs generalizing s with
  | nil => rfl
  | cons x xs ih => rw [absorbAll_cons, ih, absorb_var]

@[simp] theorem State.absorbAll_pc (xs : List Byte) : (s.absorbAll xs).pc = s.pc := by
  induction xs generalizing s with
  | nil => rfl
  | cons x xs ih => rw [absorbAll_cons, ih, absorb_pc]

@[simp] theorem State.absorbAll_cmds (xs : List Byte) : (s.absorbAll xs).cmds = s.cmds := by
  induction xs generalizing s with
  | nil => rfl
  | cons x xs ih => rw [absorbAll_cons, ih, absorb_cmds]

@[simp] theorem State.absorbAll_pins (xs : List Byte) : (s.absorbAll xs).pins = s.pins := by
  induction xs generalizing s with
  | nil => rfl
  | cons x xs ih => rw [absorbAll_cons, ih, absorb_pins]

@[simp] theorem State.absorbAll_taken (xs : List Byte) : (s.absorbAll xs).taken = s.taken := by
  induction xs generalizing s with
  | nil => rfl
  | cons x xs ih => rw [absorbAll_cons, ih, absorb_taken]

theorem State.absorbAll_bitlen (xs : List Byte) :
    (s.absorbAll xs).bitlen = s.bitlen + BitVec.ofNat 64 (8 * xs.length) := by
  induction xs generalizing s with
  | nil => simp
  | cons x xs ih =>
    rw [absorbAll_cons, ih, absorb_bitlen, List.length_cons, bitlen_add_succ]

theorem State.absorbAll_fill (xs : List Byte) : (s.absorbAll xs).fill = s.fill + BitVec.ofNat 6 xs.length := by
  induction xs generalizing s with
  | nil => simp
  | cons x xs ih =>
    rw [absorbAll_cons, ih, absorb_fill, List.length_cons, fill_add_succ]

/-- What storing bytes makes of BUF depends on BUF alone. -/
theorem State.storeBytes_buf_congr (t : State) (a : Nat) (bs : List Byte) (h : s.buf = t.buf) :
    (s.storeBytes a bs).buf = (t.storeBytes a bs).buf := by
  induction bs generalizing s t a with
  | nil => exact h
  | cons b bs ih => exact ih _ _ _ (by simp [h])

/-- Bytes that do not complete the block are stored from FILL on, and only BUF, BITLEN and FILL change. -/
theorem State.absorbAll_of_lt (xs : List Byte) (h : s.fill.toNat + xs.length < 64) :
    s.absorbAll xs
      = { s with
          buf := (s.storeBytes s.fill.toNat xs).buf
          bitlen := s.bitlen + BitVec.ofNat 64 (8 * xs.length)
          fill := s.fill + BitVec.ofNat 6 xs.length } := by
  induction xs generalizing s with
  | nil => simp
  | cons x xs ih =>
    rw [List.length_cons] at h
    have hne : s.fill ≠ 63 := fun h0 => by
      rw [h0, show (63 : BitVec 6).toNat = 63 from rfl] at h
      omega
    have hf : (s.absorb x).fill.toNat = s.fill.toNat + 1 := by rw [absorb_fill, fill_succ_toNat _ hne]
    have hb : ((s.absorb x).storeBytes (s.absorb x).fill.toNat xs).buf = (s.storeBytes s.fill.toNat (x :: xs)).buf := by
      rw [hf]
      apply storeBytes_buf_congr
      rw [s.absorb_of_ne x hne]
      rfl
    rw [absorbAll_cons, ih _ (by omega), hb, absorb_bitlen, absorb_fill, bitlen_add_succ, fill_add_succ,
      s.absorb_of_ne x hne, List.length_cons]

/-- Reading BUF after absorbing bytes that do not complete the block. -/
theorem State.readBuf_absorbAll_of_lt (xs : List Byte) (a : Nat) (h : s.fill.toNat + xs.length < 64) :
    (s.absorbAll xs).readBuf a
      = if s.fill.toNat ≤ a ∧ a < s.fill.toNat + xs.length then xs.getD (a - s.fill.toNat) 0 else s.readBuf a := by
  rw [← State.readBuf_storeBytes, s.absorbAll_of_lt xs h]
  exact State.readBuf_congr _ _ (by simp only) (by simp only [storeBytes_bufEpoch]) a

/-- The block that absorbed bytes complete: the pending bytes, then the absorbed ones. -/
theorem State.block_storeBytes (xs : List Byte) (h : 64 ≤ s.fill.toNat + xs.length) :
    (s.storeBytes s.fill.toNat xs).block
      = Vector.ofFn fun i : Fin 64 => if i.val < s.fill.toNat then s.readBuf i else xs.getD (i - s.fill.toNat) 0 := by
  ext i hi
  rw [State.getElem_block _ _ hi, State.readBuf_storeBytes, Vector.getElem_ofFn]
  by_cases hlt : i < s.fill.toNat
  · rw [if_neg (by omega), if_pos hlt]
  · rw [if_pos (by omega), if_neg hlt]

/-- Bytes that complete the block: it is compressed and the buffer released (R102). -/
theorem State.absorbAll_of_eq (xs : List Byte) (h : s.fill.toNat + xs.length = 64) :
    s.absorbAll xs
      = { (s.storeBytes s.fill.toNat xs).compressBuf.discardBuf with
          bitlen := s.bitlen + BitVec.ofNat 64 (8 * xs.length), fill := 0 } := by
  have hne : xs ≠ [] := fun h0 => by
    rw [h0, List.length_nil] at h
    exact absurd s.fill.isLt (by omega)
  obtain ⟨ys, x, rfl⟩ : ∃ ys x, xs = ys ++ [x] := ⟨xs.dropLast, xs.getLast hne, (List.dropLast_append_getLast hne).symm⟩
  rw [List.length_append, List.length_singleton] at h
  have hy := s.absorbAll_of_lt ys (by omega)
  have hfill : (s.absorbAll ys).fill = 63 := by
    rw [absorbAll_fill]
    apply BitVec.eq_of_toNat_eq
    rw [BitVec.toNat_add, BitVec.toNat_ofNat, show (63 : BitVec 6).toNat = 63 from rfl]
    omega
  have hb : ((s.absorbAll ys).storeBuf 63 x).buf = (s.storeBytes s.fill.toNat (ys ++ [x])).buf := by
    rw [storeBytes_append, show s.fill.toNat + ys.length = 63 by omega, hy]
    rfl
  have hblk : ((s.absorbAll ys).storeBuf 63 x).block = (s.storeBytes s.fill.toNat (ys ++ [x])).block :=
    State.block_congr _ _ fun a _ => State.readBuf_congr _ _ hb (by rw [hy]; simp) a
  have hbit : s.bitlen + BitVec.ofNat 64 (8 * ys.length) + 8 = s.bitlen + BitVec.ofNat 64 (8 * (ys.length + 1)) := by
    rw [Nat.mul_add, BitVec.ofNat_add, ← BitVec.add_assoc]
    rfl
  rw [absorbAll_append, absorbAll_cons, absorbAll_nil, absorb_of_eq _ _ hfill, absorbAll_bitlen, hbit]
  simp only [State.compressBuf, State.compressBlocks, hblk]
  apply State.ext <;> simp [hy, releasePipeline]

/-! ### Releasing the buffer -/

theorem State.readBuf_discardBuf (a : Nat) : s.discardBuf.readBuf a = Config.staleByte (s.bufEpoch + 1) a := rfl

/-! ### Byte strings -/

@[simp] theorem length_beBytes (n : Nat) {w : Nat} (v : BitVec w) : (beBytes n v).length = n := by simp [beBytes]

theorem getD_beBytes (n k : Nat) {w : Nat} (v : BitVec w) (h : k < n) :
    (beBytes n v).getD k 0 = v.extractLsb' (8 * (n - 1 - k)) 8 := by
  simp [beBytes, h]

end Sys2Proof.Machine
end

