-- ==== Sys2Proof/Laws/Datapath.lean ====
section
/-! SUPPORT. The shape of the message schedule and of the rounds, so that no proof unfolds the whole compression. -/

namespace Sys2Proof.Machine

/-! ### The schedule -/

theorem schedule_eq (v : Variant) (blk : Block) : schedule v blk = expandBlock (expandRule v) blk := by
  cases v <;> rfl

@[simp] theorem length_expand (R : Word → Word) (n : Nat) (ws : List Word) : (expand R n ws).length = n + ws.length := by
  induction n generalizing ws with
  | zero => simp [expand]
  | succ n ih => rw [expand, ih, List.length_cons]; omega

/-- The words expanded so far are the tail of the words expanded in the end. -/
theorem expand_suffix (R : Word → Word) (n : Nat) (ws : List Word) : ws <:+ expand R n ws := by
  induction n generalizing ws with
  | zero => exact List.suffix_refl ws
  | succ n ih => exact (List.suffix_cons _ ws).trans (ih _)

theorem expand_add (R : Word → Word) (m n : Nat) (ws : List Word) : expand R (m + n) ws = expand R n (expand R m ws) := by
  induction m generalizing ws with
  | zero => rw [Nat.zero_add]; rfl
  | succ m ih => rw [Nat.succ_add]; exact ih _

theorem expand_succ (R : Word → Word) (n : Nat) (ws : List Word) :
    expand R (n + 1) ws = nextWord R (expand R n ws) :: expand R n ws := by
  rw [expand_add]; rfl

@[simp] theorem length_expandBlock (R : Word → Word) (blk : Block) : (expandBlock R blk).length = 80 := by
  simp [expandBlock]

/-- A schedule word is settled once it is expanded: the words after it do not change it. -/
theorem expandBlock_getD (R : Word → Word) (blk : Block) (n t : Nat) (hn : n ≤ 64) (h : t < 16 + n) :
    (expandBlock R blk).getD t 0 = (expand R n ((List.range 16).map (messageWord blk)).reverse).reverse.getD t 0 := by
  obtain ⟨m, hm⟩ : ∃ m, 64 = n + m := ⟨64 - n, by omega⟩
  unfold expandBlock
  rw [hm, expand_add]
  obtain ⟨p, hp⟩ := expand_suffix R m (expand R n ((List.range 16).map (messageWord blk)).reverse)
  rw [← hp, List.reverse_append, List.getD_append]
  simp only [List.length_reverse, length_expand, List.length_map, List.length_range]
  omega

/-! ### The rounds -/

@[simp] theorem rounds_nil (t : Nat) (x : Working) : rounds t [] x = x := rfl

@[simp] theorem rounds_cons (t : Nat) (w : Word) (ws : List Word) (x : Working) :
    rounds t (w :: ws) x = rounds (t + 1) ws (roundStep t w x) := rfl

theorem rounds_append (t : Nat) (us ws : List Word) (x : Working) :
    rounds t (us ++ ws) x = rounds (t + us.length) ws (rounds t us x) := by
  induction us generalizing t x with
  | nil => rfl
  | cons u us ih => rw [List.cons_append, rounds_cons, ih, rounds_cons, List.length_cons, Nat.add_assoc, Nat.add_comm 1]

/-! ### The compression -/

/-- Blocks that agree byte by byte compress alike. -/
theorem compress_congr (h : Chain) (blk blk' : Block) (v : Variant) (hb : ∀ i (hi : i < 64), blk[i] = blk'[i]) :
    compress h blk v = compress h blk' v :=
  congrArg (fun b => compress h b v) (Vector.ext hb)

end Sys2Proof.Machine
end

