-- ==== Sys2Proof/Laws/Decode.lean ====
section
/-! SUPPORT. The fields of a command word: each is read back from the word that was put together of them, and the word is its fields. -/

namespace Sys2Proof

open Sys2Proof.Machine

/-- The bits of a command word, field by field (R70). -/
theorem getLsbD_word (op : BitVec 4) (z n : BitVec 2) (data : BitVec 32) (i : Nat) :
    BitVec.getLsbD (w := 40) (op ++ z ++ n ++ data) i =
      if i < 32 then data.getLsbD i else if i < 34 then n.getLsbD (i - 32)
      else if i < 36 then z.getLsbD (i - 34) else op.getLsbD (i - 36) := by
  show BitVec.getLsbD ((op ++ z ++ n) ++ data) i = _
  rw [BitVec.getLsbD_append]
  split_ifs <;> (try rfl) <;> simp only [BitVec.getLsbD_append] <;> (try split_ifs) <;> (try omega) <;> (congr 1)

@[simp] theorem cmdOp_word (op : BitVec 4) (z n : BitVec 2) (data : BitVec 32) : cmdOp (op ++ z ++ n ++ data) = op := by
  apply BitVec.eq_of_getLsbD_eq
  intro i hi
  rw [cmdOp, BitVec.getLsbD_extractLsb', getLsbD_word]
  simp [hi, show ¬ 36 + i < 32 by omega, show ¬ 36 + i < 34 by omega]

@[simp] theorem cmdZ_word (op : BitVec 4) (z n : BitVec 2) (data : BitVec 32) : cmdZ (op ++ z ++ n ++ data) = z := by
  apply BitVec.eq_of_getLsbD_eq
  intro i hi
  rw [cmdZ, BitVec.getLsbD_extractLsb', getLsbD_word]
  simp [hi, show ¬ 34 + i < 32 by omega, show 34 + i < 36 by omega]

@[simp] theorem cmdN_word (op : BitVec 4) (z n : BitVec 2) (data : BitVec 32) : cmdN (op ++ z ++ n ++ data) = n := by
  apply BitVec.eq_of_getLsbD_eq
  intro i hi
  rw [cmdN, BitVec.getLsbD_extractLsb', getLsbD_word]
  simp [hi, show 32 + i < 34 by omega]

@[simp] theorem cmdData_word (op : BitVec 4) (z n : BitVec 2) (data : BitVec 32) :
    cmdData (op ++ z ++ n ++ data) = data := by
  apply BitVec.eq_of_getLsbD_eq
  intro i hi
  rw [cmdData, BitVec.getLsbD_extractLsb', getLsbD_word]
  simp [hi]

@[simp] theorem cmdOp_cmdWord (op : BitVec 4) (n : BitVec 2) (data : BitVec 32) : cmdOp (cmdWord op n data) = op :=
  cmdOp_word op 0#2 n data

@[simp] theorem cmdZ_cmdWord (op : BitVec 4) (n : BitVec 2) (data : BitVec 32) : cmdZ (cmdWord op n data) = 0#2 :=
  cmdZ_word op 0#2 n data

@[simp] theorem cmdN_cmdWord (op : BitVec 4) (n : BitVec 2) (data : BitVec 32) : cmdN (cmdWord op n data) = n :=
  cmdN_word op 0#2 n data

@[simp] theorem cmdData_cmdWord (op : BitVec 4) (n : BitVec 2) (data : BitVec 32) : cmdData (cmdWord op n data) = data :=
  cmdData_word op 0#2 n data

/-- A command word is its four fields. -/
theorem word_eq_fields (w : CmdWord) : w = cmdOp w ++ cmdZ w ++ cmdN w ++ cmdData w := by
  apply BitVec.eq_of_getLsbD_eq
  intro i hi
  rw [getLsbD_word]
  simp only [cmdOp, cmdZ, cmdN, cmdData, BitVec.getLsbD_extractLsb']
  split_ifs with h1 h2 h3
  · simp [h1]
  · simp [show i - 32 < 2 by omega, show 32 + (i - 32) = i by omega]
  · simp [show i - 34 < 2 by omega, show 34 + (i - 34) = i by omega]
  · simp [show i - 36 < 4 by omega, show 36 + (i - 36) = i by omega]

/-- Packing four bytes and reading message byte k gives byte k back (R56). -/
theorem dataByte_packBytes (bytes : List Byte) (k : Nat) (h : k < 4) : dataByte (packBytes bytes) k = bytes.getD k 0 := by
  apply BitVec.eq_of_getLsbD_eq
  intro i hi
  rw [dataByte, packBytes, BitVec.getLsbD_extractLsb']
  show (decide (i < 8) && BitVec.getLsbD
    (((bytes.getD 0 0 ++ bytes.getD 1 0) ++ bytes.getD 2 0) ++ bytes.getD 3 0) (24 - 8 * k + i)) = _
  simp only [BitVec.getLsbD_append, hi, decide_true, Bool.true_and]
  obtain rfl | rfl | rfl | rfl : k = 0 ∨ k = 1 ∨ k = 2 ∨ k = 3 := by omega
  · rw [if_neg (by omega), if_neg (by omega), if_neg (by omega)]
    congr 1
    omega
  · rw [if_neg (by omega), if_neg (by omega), if_pos (by omega)]
    congr 1
    omega
  · rw [if_neg (by omega), if_pos (by omega)]
    congr 1
    omega
  · rw [if_pos (by omega)]
    congr 1
    omega

/-- The message bytes read from packed bytes are the packed bytes. -/
theorem msgBytes_packBytes (bytes : List Byte) (h1 : 1 ≤ bytes.length) (h4 : bytes.length ≤ 4) :
    msgBytes (BitVec.ofNat 2 (bytes.length - 1)) (packBytes bytes) = bytes := by
  have hn : (BitVec.ofNat 2 (bytes.length - 1)).toNat + 1 = bytes.length := by
    rw [BitVec.toNat_ofNat]; omega
  apply List.ext_getElem
  · rw [msgBytes, List.length_map, List.length_range, hn]
  · intro k hk _
    rw [msgBytes, hn] at hk
    simp only [List.length_map, List.length_range] at hk
    simp [msgBytes, dataByte_packBytes bytes k (by omega), hk]

@[simp] theorem length_msgBytes (n : BitVec 2) (data : BitVec 32) : (msgBytes n data).length = n.toNat + 1 := by
  simp [msgBytes]

/-- The decoder on a word given by its fields (R81). -/
theorem decode_word (op : BitVec 4) (z n : BitVec 2) (data : BitVec 32) :
    decode (op ++ z ++ n ++ data) =
      if z ≠ 0#2 then .error .reservedField
      else if op = 0x2#4 then .ok (.upd (msgBytes n data))
      else if 0x6#4 ≤ op then .error .reservedOpcode
      else if n ≠ 0#2 then .error .countField
      else if op = 0x0#4 then .ok .nop
      else if op = 0x1#4 then .ok (.init (variantOperand data))
      else if op = 0x3#4 then .ok .updz
      else if op = 0x4#4 then .ok .final
      else .ok .stat := by
  unfold decode
  rw [cmdOp_word, cmdZ_word, cmdN_word, cmdData_word]

end Sys2Proof
end

