-- ==== Sys2Proof/Laws/Pad.lean ====
section
/-! SUPPORT. What the padding finalizer changes, and what the blocks it compresses read as. -/

namespace Sys2Proof.Machine

variable (s : State)

/-- Padding makes one block when FILL <= 55, and two otherwise (R142, R143). -/
theorem State.padBlocks_of_le (h : s.fill.toNat ≤ 55) : s.padBlocks = [s.padSingle] := if_pos h

theorem State.padBlocks_of_gt (h : 56 ≤ s.fill.toNat) : s.padBlocks = [s.padSpill, s.padLength] := if_neg (by omega)

/-! ### The bytes of BUF under the finalizer's writes -/

/-- Reading under a zero fill. -/
theorem State.readBuf_zeroFill (a n a' : Nat) :
    (s.zeroFill a n).readBuf a' = if a ≤ a' ∧ a' < a + n then 0 else s.readBuf a' := by
  unfold State.zeroFill
  rw [State.readBuf_storeBytes, List.length_replicate]
  split_ifs with h
  · rw [List.getD_eq_getElem _ _ (by rw [List.length_replicate]; omega), List.getElem_replicate]
  · rfl

/-- Reading under `MemWrite`. -/
theorem State.readBuf_memWrite (a n a' : Nat) {w : Nat} (v : BitVec w) :
    (s.memWrite a n v).readBuf a'
      = if a ≤ a' ∧ a' < a + n then v.extractLsb' (8 * (n - 1 - (a' - a))) 8 else s.readBuf a' := by
  unfold State.memWrite
  rw [State.readBuf_storeBytes, length_beBytes]
  split_ifs with h
  · rw [getD_beBytes _ _ _ (by omega)]
  · rfl

/-! ### The padded blocks, byte by byte -/

theorem State.getElem_padSingle (i : Nat) (hi : i < 64) :
    s.padSingle[i] =
      if 56 ≤ i ∧ i < 56 + 8 then s.bitlen.extractLsb' (8 * (8 - 1 - (i - 56))) 8
      else if s.fill.toNat + 1 ≤ i ∧ i < s.fill.toNat + 1 + (55 - s.fill.toNat) then 0
      else if i = s.fill.toNat then 0x80 else s.readBuf i := by
  unfold State.padSingle
  rw [State.getElem_block _ _ hi, State.readBuf_memWrite, State.readBuf_zeroFill, State.readBuf_storeBuf]

theorem State.getElem_padSpill (i : Nat) (hi : i < 64) :
    s.padSpill[i] =
      if s.fill.toNat + 1 ≤ i ∧ i < s.fill.toNat + 1 + (63 - s.fill.toNat) then 0
      else if i = s.fill.toNat then 0x80 else s.readBuf i := by
  unfold State.padSpill
  rw [State.getElem_block _ _ hi, State.readBuf_zeroFill, State.readBuf_storeBuf]

theorem State.getElem_padLength (i : Nat) (hi : i < 64) :
    s.padLength[i] =
      if 56 ≤ i ∧ i < 56 + 8 then s.bitlen.extractLsb' (8 * (8 - 1 - (i - 56))) 8
      else if 0 ≤ i ∧ i < 0 + 56 then 0 else s.readBuf i := by
  unfold State.padLength
  rw [State.getElem_block _ _ hi, State.readBuf_memWrite, State.readBuf_zeroFill]

/-! ### What padding depends on -/

/-- The padded blocks are a function of BUF as it reads, FILL and BITLEN. -/
theorem State.padBlocks_congr (t : State) (hb : s.buf = t.buf) (he : s.bufEpoch = t.bufEpoch) (hf : s.fill = t.fill)
    (hl : s.bitlen = t.bitlen) : s.padBlocks = t.padBlocks := by
  have hr := s.readBuf_congr t hb he
  have h1 : s.padSingle = t.padSingle := Vector.ext fun i hi => by
    rw [s.getElem_padSingle i hi, t.getElem_padSingle i hi, hf, hl, hr i]
  have h2 : s.padSpill = t.padSpill := Vector.ext fun i hi => by
    rw [s.getElem_padSpill i hi, t.getElem_padSpill i hi, hf, hr i]
  have h3 : s.padLength = t.padLength := Vector.ext fun i hi => by
    rw [s.getElem_padLength i hi, t.getElem_padLength i hi, hl, hr i]
  unfold State.padBlocks
  rw [hf, h1, h2, h3]

end Sys2Proof.Machine
end

