-- ==== Sys2Proof/Laws/PerInstr.lean ====
section
/-! SUPPORT. The per-instruction family `EncodedFields`: the control fields of every instruction's encoding, as the opcode map gives
them (R70, R72). -/

namespace Sys2Proof.Laws.EncodedFields

open Sys2Proof Sys2Proof.Machine

/-- The opcode of each command (R72). -/
def opcode : Instr → BitVec 4
  | .nop => 0x0
  | .init _ => 0x1
  | .upd _ => 0x2
  | .updz => 0x3
  | .final => 0x4
  | .stat => 0x5

/-- The byte count less one of UPD, and 0 for every other command (R70, R73). -/
def count : Instr → BitVec 2
  | .nop => 0
  | .init _ => 0
  | .upd bytes => BitVec.ofNat 2 (bytes.length - 1)
  | .updz => 0
  | .final => 0
  | .stat => 0

/-- The encoding of `i` has its opcode in OP, 0 in Z and its count in N. -/
def Statement (i : Instr) : Prop :=
  cmdOp (encode i) = opcode i ∧ cmdZ (encode i) = 0#2 ∧ cmdN (encode i) = count i

theorem nop : Statement .nop := ⟨cmdOp_cmdWord _ _ _, cmdZ_cmdWord _ _ _, cmdN_cmdWord _ _ _⟩

theorem init (v : Variant) : Statement (.init v) := ⟨cmdOp_cmdWord _ _ _, cmdZ_cmdWord _ _ _, cmdN_cmdWord _ _ _⟩

theorem upd (bytes : List Byte) : Statement (.upd bytes) := ⟨cmdOp_cmdWord _ _ _, cmdZ_cmdWord _ _ _, cmdN_cmdWord _ _ _⟩

theorem updz : Statement .updz := ⟨cmdOp_cmdWord _ _ _, cmdZ_cmdWord _ _ _, cmdN_cmdWord _ _ _⟩

theorem final : Statement .final := ⟨cmdOp_cmdWord _ _ _, cmdZ_cmdWord _ _ _, cmdN_cmdWord _ _ _⟩

theorem stat : Statement .stat := ⟨cmdOp_cmdWord _ _ _, cmdZ_cmdWord _ _ _, cmdN_cmdWord _ _ _⟩

end Sys2Proof.Laws.EncodedFields
end

