-- ==== Sys2Proof/Laws/Step.lean ====
section
/-! SUPPORT. What a command and a step can do, each said once: the equations of `exec`, and the inversion of `command` and `step`. -/

namespace Sys2Proof.Machine

variable (s t : State)

/-! ### The meanings -/

theorem State.whenActive_active (p : State) (h : s.fin = .active) : s.whenActive p = .next p := by
  unfold State.whenActive; rw [h]

theorem State.whenActive_finalized (p : State) (h : s.fin = .finalized) : s.whenActive p = .next (s.raise .efin) := by
  unfold State.whenActive; rw [h]

theorem exec_nop : exec .nop s = .next (s.respond .ok 0) := rfl

theorem exec_init (v : Variant) : exec (.init v) s = .next ((s.initialise v).respond .ok 0) := rfl

theorem exec_stat : exec .stat s = .next (s.respond .ok (s.statusWord.setWidth 160)) := rfl

theorem exec_upd_active (bytes : List Byte) (h : s.fin = .active) :
    exec (.upd bytes) s = .next ((s.absorbAll bytes).respond .ok 0) := s.whenActive_active _ h

theorem exec_updz_active (h : s.fin = .active) : exec .updz s = .next (s.respond .ok 0) := s.whenActive_active _ h

theorem exec_final_active (h : s.fin = .active) :
    exec .final s = .next (s.afterFinal.respond .ok (digest s.afterFinal.h)) := s.whenActive_active _ h

theorem exec_upd_finalized (bytes : List Byte) (h : s.fin = .finalized) :
    exec (.upd bytes) s = .next (s.raise .efin) := s.whenActive_finalized _ h

theorem exec_updz_finalized (h : s.fin = .finalized) : exec .updz s = .next (s.raise .efin) := s.whenActive_finalized _ h

theorem exec_final_finalized (h : s.fin = .finalized) : exec .final s = .next (s.raise .efin) :=
  s.whenActive_finalized _ h

/-- Everything a command of the opcode table can do. -/
theorem exec_cases {i : Instr} (h : exec i s = .next t) :
    (i = .nop ∧ t = s.respond .ok 0) ∨
    (∃ v, i = .init v ∧ t = (s.initialise v).respond .ok 0) ∨
    (i = .stat ∧ t = s.respond .ok (s.statusWord.setWidth 160)) ∨
    (s.fin = .active ∧ i = .updz ∧ t = s.respond .ok 0) ∨
    (s.fin = .active ∧ ∃ bytes, i = .upd bytes ∧ t = (s.absorbAll bytes).respond .ok 0) ∨
    (s.fin = .active ∧ i = .final ∧ t = s.afterFinal.respond .ok (digest s.afterFinal.h)) ∨
    (s.fin = .finalized ∧ (i = .updz ∨ i = .final ∨ ∃ bytes, i = .upd bytes) ∧ t = s.raise .efin) := by
  rcases hf : s.fin with _ | _
  all_goals cases i with
    | nop => exact .inl ⟨rfl, (Host.Outcome.next.inj h).symm⟩
    | init v => exact .inr (.inl ⟨v, rfl, (Host.Outcome.next.inj h).symm⟩)
    | stat => exact .inr (.inr (.inl ⟨rfl, (Host.Outcome.next.inj h).symm⟩))
    | updz =>
      first
      | rw [exec_updz_active s hf] at h
        exact .inr (.inr (.inr (.inl ⟨rfl, rfl, (Host.Outcome.next.inj h).symm⟩)))
      | rw [exec_updz_finalized s hf] at h
        exact .inr (.inr (.inr (.inr (.inr (.inr ⟨rfl, .inl rfl, (Host.Outcome.next.inj h).symm⟩)))))
    | upd bytes =>
      first
      | rw [exec_upd_active s bytes hf] at h
        exact .inr (.inr (.inr (.inr (.inl ⟨rfl, bytes, rfl, (Host.Outcome.next.inj h).symm⟩))))
      | rw [exec_upd_finalized s bytes hf] at h
        exact .inr (.inr (.inr (.inr (.inr (.inr ⟨rfl, .inr (.inr ⟨bytes, rfl⟩), (Host.Outcome.next.inj h).symm⟩)))))
    | final =>
      first
      | rw [exec_final_active s hf] at h
        exact .inr (.inr (.inr (.inr (.inr (.inl ⟨rfl, rfl, (Host.Outcome.next.inj h).symm⟩)))))
      | rw [exec_final_finalized s hf] at h
        exact .inr (.inr (.inr (.inr (.inr (.inr ⟨rfl, .inr (.inl rfl), (Host.Outcome.next.inj h).symm⟩)))))

/-- Every command has a next state. -/
theorem exec_next (i : Instr) : ∃ t, exec i s = .next t := by
  rcases hf : s.fin with _ | _ <;> cases i with
    | nop => exact ⟨_, rfl⟩
    | init v => exact ⟨_, rfl⟩
    | stat => exact ⟨_, rfl⟩
    | upd bytes =>
      first
      | exact ⟨_, exec_upd_active s bytes hf⟩
      | exact ⟨_, exec_upd_finalized s bytes hf⟩
    | updz =>
      first
      | exact ⟨_, exec_updz_active s hf⟩
      | exact ⟨_, exec_updz_finalized s hf⟩
    | final =>
      first
      | exact ⟨_, exec_final_active s hf⟩
      | exact ⟨_, exec_final_finalized s hf⟩

/-! ### The command cycle -/

theorem command_of_ok {w : CmdWord} {i : Instr} (h : decode w = .ok i) : command w s = exec i s := by
  unfold command; rw [h]

theorem command_of_error {w : CmdWord} {e : Illegal} (h : decode w = .error e) : command w s = .next (s.raise .eill) := by
  unfold command; rw [h]

/-- Everything a command word can do. -/
theorem command_cases {w : CmdWord} (h : command w s = .next t) :
    (∃ e, decode w = .error e ∧ t = s.raise .eill) ∨ (∃ i, decode w = .ok i ∧ exec i s = .next t) := by
  rcases hd : decode w with e | i
  · rw [command_of_error s hd] at h
    exact .inl ⟨e, rfl, (Host.Outcome.next.inj h).symm⟩
  · rw [command_of_ok s hd] at h
    exact .inr ⟨i, rfl, h⟩

/-- Every command word has a next state. -/
theorem command_next (w : CmdWord) : ∃ t, command w s = .next t := by
  rcases hd : decode w with e | i
  · exact ⟨_, command_of_error s hd⟩
  · rw [command_of_ok s hd]; exact exec_next s i

/-- What every command word does alike: it leaves the host alone, advances `pc` by 1 and holds a response. -/
theorem command_frame {w : CmdWord} (h : command w s = .next t) :
    t.cmds = s.cmds ∧ t.pins = s.pins ∧ t.taken = s.taken ∧ t.pc = s.pc + 1 ∧ t.rspPending = true := by
  rcases command_cases s t h with ⟨e, -, rfl⟩ | ⟨i, -, hx⟩
  · exact ⟨rfl, rfl, rfl, rfl, rfl⟩
  · rcases exec_cases s t hx with ⟨-, rfl⟩ | ⟨v, -, rfl⟩ | ⟨-, rfl⟩ | ⟨-, -, rfl⟩ | ⟨-, b, -, rfl⟩ | ⟨-, -, rfl⟩ | ⟨-, -, rfl⟩
    all_goals (refine ⟨?_, ?_, ?_, ?_, ?_⟩ <;> first | rfl | simp)

/-! ### The step -/

/-- With `rst` high the step is the hardware reset. -/
theorem step_reset (h : s.pinsNow.rst = true) : step s = .next s.nextPins.hardwareReset := by
  unfold step edge; rw [if_pos h]

/-- Everything a step can do: hardware reset; the response taken; a command performed; or nothing but the passing of the edge. -/
theorem step_cases (h : step s = .next t) :
    (s.pinsNow.rst = true ∧ t = s.nextPins.hardwareReset) ∨
    (s.pinsNow.rst = false ∧ s.rspPending = true ∧ s.pinsNow.rspReady = true ∧ t = s.nextPins.takeResponse) ∨
    (s.pinsNow.rst = false ∧ s.rspPending = false ∧ s.cmdReady = true ∧
      ∃ w, s.offered = some w ∧ command w s.nextPins.nextCmd = .next t) ∨
    (s.pinsNow.rst = false ∧ (s.rspPending = true ∧ s.pinsNow.rspReady = false ∨ s.rspPending = false ∧ s.offered = none) ∧
      t = s.nextPins) := by
  unfold step edge at h
  rcases hr : s.pinsNow.rst with _ | _
  · rw [hr, if_neg Bool.false_ne_true] at h
    rcases hp : s.rspPending with _ | _
    · have hv : s.rspValid = false := by simp [State.rspValid, hp]
      have hc : s.cmdReady = true := by simp [State.cmdReady, hr, hp]
      simp only [hv, Bool.false_and, Bool.false_eq_true, if_false, hc, if_true] at h
      rcases ho : s.offered with _ | w
      · rw [ho] at h
        exact .inr (.inr (.inr ⟨rfl, .inr ⟨rfl, rfl⟩, (Host.Outcome.next.inj h).symm⟩))
      · rw [ho] at h
        exact .inr (.inr (.inl ⟨rfl, rfl, hc, w, rfl, h⟩))
    · have hv : s.rspValid = true := by simp [State.rspValid, hr, hp]
      have hc : s.cmdReady = false := by simp [State.cmdReady, hp]
      rcases hy : s.pinsNow.rspReady with _ | _
      · simp only [hv, hy, Bool.and_false, Bool.false_eq_true, if_false, hc] at h
        refine .inr (.inr (.inr ⟨rfl, .inl ⟨rfl, rfl⟩, ?_⟩))
        split at h <;> exact (Host.Outcome.next.inj h).symm
      · simp only [hv, hy, Bool.and_self, if_true] at h
        exact .inr (.inl ⟨rfl, rfl, rfl, (Host.Outcome.next.inj h).symm⟩)
  · rw [hr, if_pos rfl] at h
    exact .inl ⟨rfl, (Host.Outcome.next.inj h).symm⟩

/-- An offered word that the idle port accepts is performed. -/
theorem step_of_offered {w : CmdWord} (hr : s.pinsNow.rst = false) (hp : s.rspPending = false) (ho : s.offered = some w) :
    step s = command w s.nextPins.nextCmd := by
  unfold step edge
  simp [hr, State.rspValid, hp, ho, State.cmdReady]

/-- A held response that the host is ready for is taken. -/
theorem step_of_held (hr : s.pinsNow.rst = false) (hp : s.rspPending = true) (hy : s.pinsNow.rspReady = true) :
    step s = .next s.nextPins.takeResponse := by
  unfold step edge
  simp [hr, State.rspValid, hp, hy]

/-! ### Runs -/

@[simp] theorem length_responses (ws : List CmdWord) : (responses ws s).length = ws.length := by
  induction ws generalizing s with
  | nil => rfl
  | cons w ws ih => simp [responses, ih]

theorem served_of_command {w : CmdWord} (h : command w s = .next t) : served w s = t := by
  unfold served; rw [h]

theorem execAll_cons {i : Instr} {u : State} (is : List Instr) (h : exec i s = .next u) :
    execAll (i :: is) s = execAll is u := by
  simp only [execAll, h]

theorem execAll_append {is : List Instr} {u : State} (js : List Instr) (h : execAll is s = .next u) :
    execAll (is ++ js) s = execAll js u := by
  induction is generalizing s with
  | nil => rw [List.nil_append, Host.Outcome.next.inj h]
  | cons i is ih =>
    simp only [execAll, List.cons_append] at h ⊢
    rcases hx : exec i s with v | r | r
    · rw [hx] at h; exact ih _ h
    · rw [hx] at h; cases h
    · rw [hx] at h; cases h

/-- A run of `m + n` steps is a run of `m` and then one of `n`. -/
theorem run_add (m n : Nat) {u : State} (h : core.run m s = .next u) : core.run (m + n) s = core.run n u := by
  induction m generalizing s with
  | zero => rw [Nat.zero_add, Host.Outcome.next.inj h]
  | succ m ih =>
    rw [Nat.succ_add]
    simp only [Host.Core.run] at h ⊢
    rcases hs : core.step s with v | r | r
    · rw [hs] at h; exact ih _ h
    · rw [hs] at h; cases h
    · rw [hs] at h; cases h

end Sys2Proof.Machine
end

