-- ==== Sys2Proof/Tests/Slice0.lean ====
section
/-! SUPPORT. The model's own tests: the smoke tests of WellFormed, words written out from the encodings, one step of each command with the
results of `95_test_vectors.md`, and for each statement with hypotheses a concrete state and operands that meet them. -/

namespace Sys2Proof.Tests

open Sys2Proof.Machine

/-! ### Helpers -/

/-- The next state of an outcome. -/
def next? : Host.Outcome State Fault Refusal → Option State
  | .next t => some t
  | .fault _ => none
  | .refused _ => none

/-- Status and data of the response an outcome holds. -/
def reply (o : Host.Outcome State Fault Refusal) : Option (BitVec 2 × RspData) :=
  (next? o).map fun t => (t.rspStatus, t.rspData)

/-- FIN, VAR, FILL and BITLEN after an outcome, the columns of the command vectors. -/
def columns (o : Host.Outcome State Fault Refusal) : Option (Lifecycle × Variant × Nat × Nat) :=
  (next? o).map fun t => (t.fin, t.var, t.fill.toNat, t.bitlen.toNat)

/-- A state with `n < 64` pending bytes 0x61 and nothing before them. -/
def pending (n : Nat) : State :=
  { State.reset with
    buf := (List.range n).map fun a => (a, 0x61), fill := BitVec.ofNat 6 n, bitlen := BitVec.ofNat 64 (8 * n) }

/-- After `INIT sha1`, `UPD 'a','b','c'`. -/
def abc : State := { State.reset with buf := [(0, 0x61), (1, 0x62), (2, 0x63)], fill := 3, bitlen := 24 }

/-- After a FINAL. -/
def finalized : State := { State.reset with fin := .finalized, bitlen := 24 }

/-- A host that drives `rst` at the coming two edges. -/
def resetting : State := { finalized with var := .sha0, pins := [⟨true, true, true⟩, ⟨true, true, true⟩] }

/-- A host that offers one command word to `s`. -/
def offering (w : CmdWord) (s : State) : State := { s with cmds := [w] }

/-- A held response, and a host that takes it or not. -/
def held (ready : Bool) : State :=
  { State.reset with rspPending := true, rspStatus := 1, pins := [⟨false, true, ready⟩], cmds := [0x5000000000] }

/-! ### WellFormed: what it refuses -/

theorem test_upd_of_no_byte_is_ill_formed : (Instr.upd []).wellFormed = false := by decide

theorem test_upd_of_five_bytes_is_ill_formed : (Instr.upd [1, 2, 3, 4, 5]).wellFormed = false := by decide

theorem test_upd_of_one_and_of_four_bytes_is_well_formed :
    (Instr.upd [1]).wellFormed = true ∧ (Instr.upd [1, 2, 3, 4]).wellFormed = true := by decide

/-! ### Decoding: OP, Z, N and DATA written out bit by bit (`95_test_vectors.md` section 5.1) -/

theorem test_decode_nop : decode 0b0000000011111111111111111111111111111111#40 = .ok .nop := by decide

theorem test_decode_init_sha1 : decode 0b0001000011111111111111111111111111111110#40 = .ok (.init .sha1) := by decide

theorem test_decode_init_sha0 : decode 0b0001000000000000000000000000000000000001#40 = .ok (.init .sha0) := by decide

theorem test_decode_upd_one_byte : decode 0b0010000001100001111111111111111111111111#40 = .ok (.upd [0x61]) := by decide

theorem test_decode_upd_four_bytes :
    decode 0b0010001101100001011000100110001101100100#40 = .ok (.upd [0x61, 0x62, 0x63, 0x64]) := by decide

theorem test_decode_updz : decode 0b0011000000000000000000000000000000000000#40 = .ok .updz := by decide

theorem test_decode_final : decode 0b0100000000000000000000000000000000000000#40 = .ok .final := by decide

theorem test_decode_stat : decode 0b0101000000000000000000000000000000000000#40 = .ok .stat := by decide

theorem test_decode_reserved_field :
    decode 0b0000010000000000000000000000000000000000#40 = .error .reservedField ∧
    decode 0x2761626364 = .error .reservedField ∧ decode 0x2B61626364 = .error .reservedField ∧
    decode 0x5C00000000 = .error .reservedField ∧ decode 0xFFFFFFFFFF = .error .reservedField := by decide

theorem test_decode_reserved_opcode :
    decode 0b0110000000000000000000000000000000000000#40 = .error .reservedOpcode ∧
    decode 0xF000000000 = .error .reservedOpcode := by decide

theorem test_decode_count_field :
    decode 0b0000000100000000000000000000000000000000#40 = .error .countField ∧
    decode 0x1300000001 = .error .countField ∧ decode 0x3200000000 = .error .countField := by decide

theorem test_encode_writes_the_assembler_words :
    encode (.init .sha0) = 0x1000000001 ∧ encode (.upd [0x61, 0x62, 0x63]) = 0x2261626300 ∧ encode .stat = 0x5000000000 := by
  decide

theorem test_decodeTableWord_reads_one_word :
    decodeTableWord 40 0x2261626300 = some (.upd [0x61, 0x62, 0x63]) ∧ decodeTableWord 40 0x6000000000 = none ∧
    decodeTableWord 48 0x5000000000 = none := by decide

/-! ### One step of each command (`95_test_vectors.md` section 5.2) -/

theorem test_nop_after_final :
    reply (exec .nop finalized) = some (0, 0) ∧ columns (exec .nop finalized) = some (.finalized, .sha1, 0, 24) := by decide

theorem test_init_sha0_leaves_finalized :
    reply (exec (.init .sha0) finalized) = some (0, 0) ∧ columns (exec (.init .sha0) finalized) = some (.active, .sha0, 0, 0) := by
  decide

theorem test_init_keeps_buf : (next? (exec (.init .sha0) abc)).map State.buf = some abc.buf := by decide

theorem test_upd_stores_after_the_pending_bytes :
    columns (exec (.upd [0x64, 0x65, 0x66, 0x67]) abc) = some (.active, .sha1, 7, 56) ∧
    (next? (exec (.upd [0x64, 0x65, 0x66, 0x67]) abc)).map (fun t => t.memRead 3 4) = some 0x64656667 := by decide

theorem test_upd_completes_a_block :
    columns (exec (.upd [0x61, 0x61, 0x61, 0x61]) (pending 61)) = some (.active, .sha1, 1, 520) ∧
    (next? (exec (.upd [0x61, 0x61, 0x61, 0x61]) (pending 61))).map State.h
      = some ⟨0xDA4968EB, 0x2E377C1F, 0x884E8F52, 0x83524BEB, 0xE74EBDBD⟩ := by decide +kernel

theorem test_updz_checks_fin :
    reply (exec .updz abc) = some (0, 0) ∧ reply (exec .updz finalized) = some (1, 0) ∧
    columns (exec .updz abc) = some (.active, .sha1, 3, 24) := by decide

theorem test_final_of_abc :
    reply (exec .final abc) = some (0, 0xA9993E364706816ABA3E25717850C26C9CD0D89D) ∧
    columns (exec .final abc) = some (.finalized, .sha1, 0, 24) := by decide +kernel

theorem test_final_of_56_bytes_as_sha0 :
    reply (exec .final { pending 56 with var := .sha0 }) = some (0, 0xF826F1DB56DDB270E25F21A7A40C4163B51C47FF) := by
  decide +kernel

theorem test_stat_word :
    reply (exec .stat abc) = some (0, 0x0000000C) ∧ reply (exec .stat finalized) = some (0, 0x00000001) ∧
    reply (exec .stat { abc with var := .sha0 }) = some (0, 0x0000000E) := by decide

theorem test_illegal_word_beats_finalized :
    reply (command 0x0400000000 finalized) = some (2, 0) ∧ reply (command 0x4400000000 finalized) = some (2, 0) ∧
    columns (command 0x6000000000 abc) = some (.active, .sha1, 3, 24) := by decide

theorem test_bitlen_wraps :
    (next? (exec (.upd [0x00]) { pending 63 with bitlen := 0xFFFFFFFFFFFFFFF8 })).map (fun t => (t.fill, t.bitlen))
      = some (0, 0) := by decide

/-! ### The datapath (`95_test_vectors.md` sections 3.1 to 3.3) -/

theorem test_rotl :
    rotl 0x80000001 1 = 0x00000003 ∧ rotl 0x67452301 5 = 0xE8A4602C ∧ rotl 0xEFCDAB89 30 = 0x7BF36AE2 := by decide

theorem test_round_functions :
    ch 0xFFFF0000 0xFF00FF00 0xF0F0F0F0 = 0xFF00F0F0 ∧ parity 0xFFFF0000 0xFF00FF00 0xF0F0F0F0 = 0xF00F0FF0 ∧
    maj 0xFFFF0000 0xFF00FF00 0xF0F0F0F0 = 0xFFF0F000 := by decide

theorem test_round_step_0 :
    roundStep 0 0x61626380 (seed initialChain) = ⟨0x0116FC33, 0x67452301, 0x7BF36AE2, 0x98BADCFE, 0x10325476⟩ := by decide

theorem test_schedule_of_the_padded_abc :
    (schedule .sha1 abc.padSingle).getD 16 0 = 0xC2C4C700 ∧ (schedule .sha1 abc.padSingle).getD 79 0 = 0x822E0879 ∧
    (schedule .sha0 abc.padSingle).getD 16 0 = 0x61626380 := by decide +kernel

/-! ### The step -/

theorem test_reset_step_waits : (next? (step State.reset)) = some State.reset := by decide

theorem test_step_runs_the_placed_word :
    reply (step (State.reset.withFetchWord 40 0x5000000000)) = some (0, 0) ∧
    reply (step (State.reset.withFetchWord 40 0x5100000000)) = some (2, 0) ∧
    (next? (step (State.reset.withFetchWord 40 0x2061000000))).map State.pc = some 1 := by decide

theorem test_hardware_reset : columns (step resetting) = some (.active, .sha1, 0, 0) := by decide

/-! ### Witnesses: reset and initialisation -/

/-- For the clauses of InitAndResetLoadInitialChain, HardwareResetInitialisesEngine, HardwareResetAgreesWithInitSha1,
RepeatedResetLeavesSameState, LifecycleTransitions, ResponsesDependOnCommandsOnly and HardwareResetIsReadyToHashSha1 that assume `rst`. -/
theorem witness_rst : resetting.pinsNow.rst = true := by decide

theorem witness_RepeatedResetLeavesSameState_second_reset :
    resetting.pinsNow.rst = true ∧ (next? (step resetting)).map (fun t => t.pinsNow.rst) = some true := by decide

/-! ### Witnesses: invariants -/

/-- A state with one absorbed byte whose next step performs FINAL. -/
def oneByte : State := { pending 1 with cmds := [0x4000000000] }

theorem witness_StepKeepsInvariant : oneByte.Inv ∧ ∃ t, step oneByte = .next t := by
  refine ⟨⟨by decide, fun a ha => ?_, ⟨by decide, fun _ => by decide⟩, by decide, by decide, fun r hr => ?_⟩, _, rfl⟩
  · obtain rfl : a = 0 := Nat.lt_one_iff.1 ha
    decide
  · cases hr

/-- BITLEN about to wrap, and a UPD that makes it wrap. -/
def aboutToWrap : State := { pending 63 with bitlen := 0xFFFFFFFFFFFFFFF8, cmds := [0x2000000000] }

theorem witness_FillInvariantHoldsAndIsKept : aboutToWrap.FillInv ∧ ∃ t, step aboutToWrap = .next t :=
  ⟨⟨by decide, fun _ => by decide⟩, _, rfl⟩

theorem witness_CanonicalBuffersAreEqual :
    Memory.wf [(0, 0x61), (63, 0x62)] = true ∧
    ∀ a, a < 64 → Memory.read? [(0, 0x61), (63, 0x62)] a = Memory.read? (Memory.write [(63, 0x62)] 0 0x61) a :=
  ⟨by decide, fun _ _ => rfl⟩

/-! ### Witnesses: byte order -/

theorem witness_MessageWordsAreBigEndian : (0 : Nat) < 16 ∧ (15 : Nat) < 16 := by decide

theorem witness_LengthFieldIsBigEndian : (0 : Nat) < 8 ∧ (7 : Nat) < 8 ∧ ((55 : Nat) < 56 ∨ 64 ≤ 55) ∧ ((64 : Nat) < 56 ∨ 64 ≤ 64) := by
  decide

theorem witness_AlignedUpdPlacesDataUnchanged :
    ((pending 56).fin = .active ∧ (pending 56).fill.toNat % 4 = 0 ∧ (pending 56).fill.toNat < 60) ∧
    ((pending 60).fin = .active ∧ (pending 60).fill.toNat % 4 = 0 ∧ (pending 60).fill.toNat = 60 ∧ (14 : Nat) < 15) := by decide

/-! ### Witnesses: NOP, STAT, UPDZ -/

/-- For the illegal forms in NopAnswersAndChangesNothing, StatAnswersStatusWord and UpdzChecksLifecycleOnly: by Z and by N alone. -/
theorem witness_illegal_form :
    ((1 : BitVec 2) ≠ 0 ∨ (0 : BitVec 2) ≠ 0) ∧ ((0 : BitVec 2) ≠ 0 ∨ (3 : BitVec 2) ≠ 0) := by decide

theorem witness_StatusWordBits : (0 : Nat) < 160 ∧ (1 : Nat) < 160 ∧ (7 : Nat) < 160 ∧ (8 : Nat) < 160 ∧ (159 : Nat) < 160 := by decide

/-- For UpdzChecksLifecycleOnly, and wherever the lifecycle state is the one hypothesis. -/
theorem witness_lifecycle : abc.fin = .active ∧ finalized.fin = .finalized := by decide

/-! ### Witnesses: UPD -/

theorem witness_OneByteUpdAbsorbsTheByte :
    ((pending 62).fin = .active ∧ (pending 62).fill ≠ 63) ∧ ((pending 63).fin = .active ∧ (pending 63).fill = 63) := by decide

theorem witness_UpdWithinBlockStoresItsBytes :
    (pending 59).fin = .active ∧ (Instr.upd [1, 2, 3, 4]).wellFormed = true ∧ (pending 59).fill.toNat + [1, 2, 3, 4].length < 64 := by
  decide

theorem witness_UpdAcrossBoundaryCompressesOnce :
    ((pending 60).fin = .active ∧ (Instr.upd [1, 2, 3, 4]).wellFormed = true ∧
      64 ≤ (pending 60).fill.toNat + [1, 2, 3, 4].length) ∧
    ((pending 63).fin = .active ∧ (Instr.upd [1, 2, 3, 4]).wellFormed = true ∧
      64 ≤ (pending 63).fill.toNat + [1, 2, 3, 4].length) := by decide

/-! ### Witnesses: FINAL -/

theorem witness_FinalPadsShortTailInOneBlock :
    ((pending 0).fin = .active ∧ (pending 0).fill.toNat ≤ 55) ∧ ((pending 55).fin = .active ∧ (pending 55).fill.toNat ≤ 55) := by
  decide

theorem witness_FinalPadsLongTailInTwoBlocks :
    ((pending 56).fin = .active ∧ 56 ≤ (pending 56).fill.toNat) ∧ ((pending 63).fin = .active ∧ 56 ≤ (pending 63).fill.toNat) := by
  decide

theorem witness_FinalReturnsDigestAndFinalizes : abc.fin = .active ∧ (0 : Nat) < 5 ∧ (4 : Nat) < 5 ∧ (0 : Nat) < 4 ∧ (3 : Nat) < 4 := by
  decide

/-! ### Witnesses: errors and the lifecycle -/

theorem witness_FinalizedEngineRaisesEfin :
    finalized.fin = .finalized ∧
    (Instr.upd [1] = .updz ∨ Instr.upd [1] = .final ∨ ∃ bytes, Instr.upd [1] = .upd bytes) ∧
    (Instr.stat = .nop ∨ Instr.stat = .stat ∨ ∃ v, Instr.stat = .init v) :=
  ⟨by decide, .inr (.inr ⟨[1], rfl⟩), .inr (.inl rfl)⟩

/-- By Z alone, by the first and the last reserved OP, and by N alone. -/
theorem witness_IllegalWordRaisesEill :
    ((1 : BitVec 2) ≠ 0 ∨ 6 ≤ (2 : BitVec 4).toNat ∨ ((2 : BitVec 4) ≠ 2 ∧ (0 : BitVec 2) ≠ 0)) ∧
    ((0 : BitVec 2) ≠ 0 ∨ 6 ≤ (6 : BitVec 4).toNat ∨ ((6 : BitVec 4) ≠ 2 ∧ (0 : BitVec 2) ≠ 0)) ∧
    ((0 : BitVec 2) ≠ 0 ∨ 6 ≤ (15 : BitVec 4).toNat ∨ ((15 : BitVec 4) ≠ 2 ∧ (0 : BitVec 2) ≠ 0)) ∧
    ((0 : BitVec 2) ≠ 0 ∨ 6 ≤ (5 : BitVec 4).toNat ∨ ((5 : BitVec 4) ≠ 2 ∧ (1 : BitVec 2) ≠ 0)) := by decide

theorem witness_ErrorChangesNoState :
    (∃ t, command 0x4000000000 finalized = .next t ∧ t.rspStatus ≠ 0) ∧ ∃ t, command 0x6000000000 abc = .next t ∧ t.rspStatus ≠ 0 :=
  ⟨⟨_, rfl, by decide⟩, ⟨_, rfl, by decide⟩⟩

theorem witness_VariantChangesOnlyByInitOrReset :
    (∃ t, step resetting = .next t ∧ t.var ≠ resetting.var) ∧
    ∃ t, step (offering 0x1000000001 abc) = .next t ∧ t.var ≠ (offering 0x1000000001 abc).var :=
  ⟨⟨_, rfl, by decide⟩, ⟨_, rfl, by decide⟩⟩

/-- By hardware reset, INIT, a UPD that completes a block, and FINAL. -/
theorem witness_ChainChangesOnlyByResetAndCompression :
    (∃ t, step { resetting with h := ⟨0, 0, 0, 0, 0⟩ } = .next t ∧ t.h ≠ ⟨0, 0, 0, 0, 0⟩) ∧
    (∃ t, step { offering 0x1000000000 abc with h := ⟨0, 0, 0, 0, 0⟩ } = .next t ∧ t.h ≠ ⟨0, 0, 0, 0, 0⟩) ∧
    (next? (step (offering 0x2061000000 (pending 63)))).map (fun t => decide (t.h = (pending 63).h)) = some false ∧
    (next? (step (offering 0x4000000000 abc))).map (fun t => decide (t.h = abc.h)) = some false :=
  ⟨⟨_, rfl, by decide⟩, ⟨_, rfl, by decide⟩, by decide +kernel, by decide +kernel⟩

theorem witness_FinalizeGuardPersistsUntilInit :
    finalized.fin = .finalized ∧
    ∀ w, w ∈ [0x4000000000, 0x5000000000, 0x2061000000, 0x6000000000] → ∀ v, decode w ≠ .ok (.init v) := by
  refine ⟨by decide, fun w hw v => ?_⟩
  simp only [List.mem_cons, List.not_mem_nil, or_false] at hw
  rcases hw with rfl | rfl | rfl | rfl <;> cases v <;> decide

theorem witness_PcCountsCompletedCommands : ∃ t, step (offering 0x6000000000 abc) = .next t ∧ t.pc = abc.pc + 1 := ⟨_, rfl, rfl⟩

/-! ### Witnesses: encoding -/

theorem witness_IgnoredDataBitsDoNotMatter :
    (((1 : BitVec 4) = 1 → (0x00000001 : BitVec 32).getLsbD 0 = (0xFFFFFFFF : BitVec 32).getLsbD 0) ∧
      ((1 : BitVec 4) = 2 → ∀ j, j < 8 * ((0 : BitVec 2).toNat + 1) →
        (0x00000001 : BitVec 32).getMsbD j = (0xFFFFFFFF : BitVec 32).getMsbD j)) ∧
    (((2 : BitVec 4) = 1 → (0x61620000 : BitVec 32).getLsbD 0 = (0x6162FFFF : BitVec 32).getLsbD 0) ∧
      ((2 : BitVec 4) = 2 → ∀ j, j < 8 * ((1 : BitVec 2).toNat + 1) →
        (0x61620000 : BitVec 32).getMsbD j = (0x6162FFFF : BitVec 32).getMsbD j)) := by decide

theorem witness_DecodeInvertsEncode :
    (Instr.upd [0xFF]).wellFormed = true ∧ (Instr.upd [0, 1, 2, 3]).wellFormed = true ∧ (Instr.init .sha0).wellFormed = true := by decide

theorem witness_DecodedInstructionIsWellFormed : decode 0x2061FFFFFF = .ok (.upd [0x61]) := by decide

/-! ### Witnesses: the step and the ports -/

theorem witness_StepPerformsOfferedCommand :
    ((offering 0x4000000000 abc).pinsNow.rst = false ∧ (offering 0x4000000000 abc).rspPending = false ∧
      (offering 0x4000000000 abc).offered = some 0x4000000000 ∧ decode 0x4000000000 = .ok .final) ∧
    ((offering 0x7000000000 abc).pinsNow.rst = false ∧ (offering 0x7000000000 abc).rspPending = false ∧
      (offering 0x7000000000 abc).offered = some 0x7000000000 ∧ decode 0x7000000000 = .error .reservedOpcode) := by decide

theorem witness_HeldResponseIsDeliveredOnce :
    ((held false).pinsNow.rst = false ∧ (held false).rspPending = true ∧ (held false).pinsNow.rspReady = false) ∧
    ((held true).pinsNow.rst = false ∧ (held true).rspPending = true ∧ (held true).pinsNow.rspReady = true) := by decide

/-- No word left, and a word that the host does not yet offer. -/
theorem witness_EngineWaitsForACommand :
    (abc.pinsNow.rst = false ∧ abc.rspPending = false ∧ abc.offered = none) ∧
    ({ offering 0 abc with pins := [⟨false, false, true⟩] }.pinsNow.rst = false ∧
      { offering 0 abc with pins := [⟨false, false, true⟩] }.rspPending = false ∧
      { offering 0 abc with pins := [⟨false, false, true⟩] }.offered = none) := by decide

theorem witness_RunServesCommandsInOrder :
    { abc with cmds := [0x4000000000, 0x4000000000, 0xF000000000] }.rspPending = false ∧
    { abc with cmds := [0x4000000000, 0x4000000000, 0xF000000000] }.pins = [] ∧
    { abc with cmds := [0x4000000000, 0x4000000000, 0xF000000000] }.cmds = [0x4000000000, 0x4000000000, 0xF000000000] := by decide

/-! ### Witnesses: command sequences -/

theorem witness_StreamingIsEquivalent :
    (∀ i : Instr, i ∈ [.upd [1, 2], .nop, .upd [3]] ++ [.updz, .upd [1, 2, 3], .stat] →
      i = .nop ∨ i = .updz ∨ i = .stat ∨ ∃ bytes, i = .upd bytes ∧ i.wellFormed = true) ∧
    [Instr.upd [1, 2], .nop, .upd [3]].flatMap messageOf = [Instr.updz, .upd [1, 2, 3], .stat].flatMap messageOf := by
  refine ⟨fun i hi => ?_, by decide⟩
  simp only [List.cons_append, List.nil_append, List.mem_cons, List.not_mem_nil, or_false] at hi
  rcases hi with rfl | rfl | rfl | rfl | rfl | rfl
  · exact .inr (.inr (.inr ⟨_, rfl, by decide⟩))
  · exact .inl rfl
  · exact .inr (.inr (.inr ⟨_, rfl, by decide⟩))
  · exact .inr (.inl rfl)
  · exact .inr (.inr (.inr ⟨_, rfl, by decide⟩))
  · exact .inr (.inr (.inl rfl))

/-- The state `abc` with other stale bytes, another pipeline and another `pc`. -/
def abcElsewhere : State :=
  { abc with buf := [(0, 0x61), (1, 0x62), (2, 0x63), (40, 0xEE)], work := ⟨1, 2, 3, 4, 5⟩, stepCounter := 79, pc := 7 }

theorem witness_StaleStateNeverMatters : abc.SameArch abcElsewhere ∧ abc ≠ abcElsewhere := by
  refine ⟨⟨rfl, rfl, rfl, rfl, rfl, fun a ha => ?_⟩, by decide⟩
  have h : a = 0 ∨ a = 1 ∨ a = 2 := by
    have : a < 3 := ha
    omega
  rcases h with rfl | rfl | rfl <;> rfl

theorem witness_ResponsesDependOnCommandsOnly : decode 0x1000000001 = .ok (.init .sha0) := by decide

theorem witness_EngineHashesWholeMessage :
    { finalized with cmds := (hashProgram .sha0 [0x61, 0x62]).map encode }.rspPending = false ∧
    { finalized with cmds := (hashProgram .sha0 [0x61, 0x62]).map encode }.pins = [] := by decide

theorem witness_UpdateProgramDeliversTheBytes :
    ([1, 2, 3, 4, 5] : List Byte) ≠ [] ∧ 0 < ([1, 2, 3, 4, 5].length + 3) / 4 ∧ 1 < ([1, 2, 3, 4, 5].length + 3) / 4 ∧
    finalized.fin = .finalized ∧ Instr.updz ∈ updateProgram [] ∧ Instr.upd [5] ∈ updateProgram [1, 2, 3, 4, 5] := by decide

/-! ### Witnesses: the compression function -/

theorem witness_RotateLeftMovesBits : (0 : Nat) < 1 ∧ (1 : Nat) < 32 ∧ (0 : Nat) < 31 ∧ (31 : Nat) < 32 := by decide

/-- For the ranges of the steps t and of the bits i. -/
theorem witness_ranges_of_the_compression : (16 : Nat) ≤ 16 ∧ (16 : Nat) < 80 ∧ (16 : Nat) ≤ 79 ∧ (79 : Nat) < 80 ∧ (15 : Nat) < 16 := by
  decide

theorem witness_VariantsAgreeOnFixedPointBlocks :
    (∀ t, 16 ≤ t → t < 80 →
      let x := (schedule .sha1 (Vector.replicate 64 0xFF)).getD (t - 3) 0
        ^^^ (schedule .sha1 (Vector.replicate 64 0xFF)).getD (t - 8) 0
        ^^^ (schedule .sha1 (Vector.replicate 64 0xFF)).getD (t - 14) 0
        ^^^ (schedule .sha1 (Vector.replicate 64 0xFF)).getD (t - 16) 0
      x = 0x00000000#32 ∨ x = 0xFFFFFFFF#32) ∧
    (∀ i, i < 16 → messageWord (Vector.replicate 64 0x61) i = 0x61616161) := by
  have h : ∀ t, t < 80 → 16 ≤ t →
      let x := (schedule .sha1 (Vector.replicate 64 0xFF)).getD (t - 3) 0
        ^^^ (schedule .sha1 (Vector.replicate 64 0xFF)).getD (t - 8) 0
        ^^^ (schedule .sha1 (Vector.replicate 64 0xFF)).getD (t - 14) 0
        ^^^ (schedule .sha1 (Vector.replicate 64 0xFF)).getD (t - 16) 0
      x = 0x00000000#32 ∨ x = 0xFFFFFFFF#32 := by decide +kernel
  exact ⟨fun t h1 h2 => h t h2 h1, by decide +kernel⟩

end Sys2Proof.Tests
end

/-! SUPPORT. Every well-formed instruction decodes from its encoding. -/

namespace Sys2Proof

open Sys2Proof.Machine

/-- The variant operand written by the encoder is read back (R75). -/
theorem variantOperand_variantBit (v : Variant) : variantOperand ((variantBit v).setWidth 32) = v := by
  cases v <;> decide

/-- The decoder on the words the encoder makes: Z = 0, and OP and N as given (R81). -/
theorem decode_cmdWord (op : BitVec 4) (n : BitVec 2) (data : BitVec 32) :
    decode (cmdWord op n data) =
      if op = 0x2#4 then .ok (.upd (msgBytes n data))
      else if 0x6#4 ≤ op then .error .reservedOpcode
      else if n ≠ 0#2 then .error .countField
      else if op = 0x0#4 then .ok .nop
      else if op = 0x1#4 then .ok (.init (variantOperand data))
      else if op = 0x3#4 then .ok .updz
      else if op = 0x4#4 then .ok .final
      else .ok .stat :=
  decode_word op 0#2 n data

/-- The decoder inverts the encoder on every well-formed instruction (R70 to R75). -/
theorem decode_encode {i : Instr} (h : i.wellFormed = true) : decode (encode i) = .ok i := by
  cases i with
  | nop => rfl
  | init v =>
    rw [encode, decode_cmdWord, variantOperand_variantBit]
    rfl
  | upd bytes =>
    simp only [Instr.wellFormed, Bool.and_eq_true, decide_eq_true_eq] at h
    obtain ⟨h1, h4⟩ := h
    rw [encode, decode_cmdWord, if_pos rfl, msgBytes_packBytes bytes h1 h4]
  | updz => rfl
  | final => rfl
  | stat => rfl

end Sys2Proof

/-! SUPPORT. The folding of blocks into a chaining value, and the padded message byte by byte. -/

namespace Sys2Proof.Machine

/-- The chaining value after the first `n` blocks of a byte sequence (R1, R13). -/
def foldBlocks (v : Variant) (bytes : List Byte) (n : Nat) : Chain :=
  (List.range n).foldl (fun h i => compress h (blockOf bytes i) v) initialChain

theorem hashMessage_eq_foldBlocks (v : Variant) (msg : List Byte) :
    hashMessage v msg = foldBlocks v (padMessage msg) ((padMessage msg).length / 64) := rfl

theorem foldBlocks_zero (v : Variant) (bytes : List Byte) : foldBlocks v bytes 0 = initialChain := rfl

theorem foldBlocks_succ (v : Variant) (bytes : List Byte) (n : Nat) :
    foldBlocks v bytes (n + 1) = compress (foldBlocks v bytes n) (blockOf bytes n) v := by
  rw [foldBlocks, List.range_succ, List.foldl_append, List.foldl_cons, List.foldl_nil, ← foldBlocks]

@[simp] theorem getElem_blockOf (bytes : List Byte) (n i : Nat) (hi : i < 64) :
    (blockOf bytes n)[i] = bytes.getD (64 * n + i) 0 := by
  simp [blockOf]

/-- A full block is settled: bytes that follow do not change it. -/
theorem blockOf_append (xs ys : List Byte) (n : Nat) (h : 64 * (n + 1) ≤ xs.length) :
    blockOf (xs ++ ys) n = blockOf xs n :=
  Vector.ext fun i hi => by
    rw [getElem_blockOf _ _ _ hi, getElem_blockOf _ _ _ hi, List.getD_append _ _ _ _ (by omega)]

/-- The full blocks of a byte sequence fold alike whatever follows them. -/
theorem foldBlocks_append (v : Variant) (xs ys : List Byte) (n : Nat) (h : 64 * n ≤ xs.length) :
    foldBlocks v (xs ++ ys) n = foldBlocks v xs n := by
  induction n with
  | zero => rw [foldBlocks_zero, foldBlocks_zero]
  | succ n ih => rw [foldBlocks_succ, foldBlocks_succ, ih (by omega), blockOf_append _ _ _ h]

/-! ### The padded message -/

/-- The offset of the length field in the padded message: 56 in its last block (R142, R143). -/
def lengthOffset (msg : List Byte) : Nat :=
  64 * (msg.length / 64 + if msg.length % 64 ≤ 55 then 0 else 1) + 56

theorem lengthOffset_of_le {msg : List Byte} (h : msg.length % 64 ≤ 55) :
    lengthOffset msg = 64 * (msg.length / 64) + 56 := by
  simp [lengthOffset, h]

theorem lengthOffset_of_gt {msg : List Byte} (h : 56 ≤ msg.length % 64) :
    lengthOffset msg = 64 * (msg.length / 64 + 1) + 56 := by
  rw [lengthOffset, if_neg (by omega)]

/-- The terminator and the zeros reach to the length field (R141). -/
theorem lengthOffset_eq (msg : List Byte) :
    lengthOffset msg = msg.length + 1 + (119 - msg.length % 64) % 64 := by
  unfold lengthOffset
  split_ifs with h <;> omega

theorem length_padMessage (msg : List Byte) : (padMessage msg).length = lengthOffset msg + 8 := by
  rw [lengthOffset_eq]
  simp only [padMessage, List.length_append, List.length_cons, List.length_replicate, length_beBytes]
  omega

/-- The padded message byte by byte: message, terminator, zeros, length field (R141 to R144). -/
theorem getD_padMessage (msg : List Byte) (k : Nat) (hk : k < lengthOffset msg + 8) :
    (padMessage msg).getD k 0 =
      if k < msg.length then msg.getD k 0
      else if k = msg.length then 0x80
      else if k < lengthOffset msg then 0
      else (lengthField msg).extractLsb' (8 * (8 - 1 - (k - lengthOffset msg))) 8 := by
  have hoff := lengthOffset_eq msg
  rw [padMessage]
  have hlen : (msg ++ 0x80#8 :: List.replicate ((119 - msg.length % 64) % 64) 0).length = lengthOffset msg := by
    simp only [List.length_append, List.length_cons, List.length_replicate]
    omega
  by_cases hend : k < lengthOffset msg
  · rw [List.getD_append _ _ _ _ (by rw [hlen]; exact hend)]
    by_cases hmsg : k < msg.length
    · rw [if_pos hmsg, List.getD_append _ _ _ _ hmsg]
    · rw [if_neg hmsg, List.getD_append_right _ _ _ _ (by omega)]
      by_cases hterm : k = msg.length
      · rw [if_pos hterm, hterm, Nat.sub_self, List.getD_cons_zero]; rfl
      · rw [if_neg hterm, if_pos hend, show k - msg.length = (k - msg.length - 1) + 1 by omega, List.getD_cons_succ,
          List.getD_replicate _ (by omega)]
  · rw [List.getD_append_right _ _ _ _ (by rw [hlen]; omega), hlen, getD_beBytes _ _ _ (by omega),
      if_neg (by omega), if_neg (by omega), if_neg hend]

end Sys2Proof.Machine

/-! SUPPORT. The engine part way through a message: what absorbing keeps, and what FINAL makes of it. -/

namespace Sys2Proof.Machine

variable {s t : State} {v : Variant} {msg : List Byte}

/-- An Active engine has absorbed `msg` since it was initialised with the variant `v`: the full blocks are folded into H0..H4 and the
rest is pending in BUF (R102). -/
structure State.Absorbed (s : State) (v : Variant) (msg : List Byte) : Prop where
  fin : s.fin = .active
  var : s.var = v
  bitlen : s.bitlen = lengthField msg
  fill : s.fill.toNat = msg.length % 64
  chain : s.h = foldBlocks v msg (msg.length / 64)
  pending : ∀ k, k < msg.length % 64 → s.readBuf k = msg.getD (64 * (msg.length / 64) + k) 0

/-- What an engine has absorbed is a matter of its architectural state. -/
theorem State.Absorbed.of_sameArch (h : s.Absorbed v msg) (hst : t.SameArch s) : t.Absorbed v msg where
  fin := hst.fin.trans h.fin
  var := hst.var.trans h.var
  bitlen := hst.bitlen.trans h.bitlen
  fill := by rw [hst.fill, h.fill]
  chain := hst.h.trans h.chain
  pending k hk := by rw [hst.pending k (by rw [hst.fill, h.fill]; exact hk), h.pending k hk]

theorem State.sameArch_respond (s : State) (st : Status) (d : RspData) : (s.respond st d).SameArch s :=
  ⟨rfl, rfl, rfl, rfl, rfl, fun _ _ => rfl⟩

theorem State.sameArch_takeResponse (s : State) : s.takeResponse.SameArch s := ⟨rfl, rfl, rfl, rfl, rfl, fun _ _ => rfl⟩

theorem State.sameArch_nextCmd (s : State) : s.nextCmd.SameArch s := ⟨rfl, rfl, rfl, rfl, rfl, fun _ _ => rfl⟩

/-- INIT starts an empty message (R104). -/
theorem State.absorbed_initialise (s : State) (v : Variant) : (s.initialise v).Absorbed v [] :=
  ⟨rfl, rfl, rfl, rfl, rfl, fun _ hk => absurd hk (Nat.not_lt_zero _)⟩

theorem lengthField_append_singleton (msg : List Byte) (x : Byte) : lengthField (msg ++ [x]) = lengthField msg + 8 := by
  rw [lengthField, List.length_append, List.length_singleton, Nat.mul_add, BitVec.ofNat_add]
  rfl

/-- Once the next byte is stored at FILL, BUF holds the tail of the message that ends with it. -/
theorem State.Absorbed.readBuf_storeBuf_fill (h : s.Absorbed v msg) (x : Byte) {k : Nat} (hk : k ≤ msg.length % 64) :
    (s.storeBuf s.fill.toNat x).readBuf k = (msg ++ [x]).getD (64 * (msg.length / 64) + k) 0 := by
  rw [State.readBuf_storeBuf, h.fill]
  obtain hlt | rfl := Nat.lt_or_eq_of_le hk
  · rw [if_neg (by omega), h.pending k hlt, List.getD_append _ _ _ _ (by omega)]
  · rw [if_pos rfl, Nat.div_add_mod, List.getD_append_right _ _ _ _ le_rfl, Nat.sub_self, List.getD_cons_zero]

/-- Absorbing a byte that does not complete the block extends the pending bytes. -/
theorem State.Absorbed.absorb_of_ne (h : s.Absorbed v msg) (x : Byte) (hne : msg.length % 64 ≠ 63) :
    (s.absorb x).Absorbed v (msg ++ [x]) := by
  have hlen : (msg ++ [x]).length = msg.length + 1 := List.length_append
  have hdiv : (msg.length + 1) / 64 = msg.length / 64 := by omega
  have hmod : (msg.length + 1) % 64 = msg.length % 64 + 1 := by omega
  have hfill : s.fill ≠ 63 := fun h63 => hne (by rw [← h.fill, h63]; rfl)
  have habsorb := s.absorb_of_ne x hfill
  refine ⟨by rw [absorb_fin, h.fin], by rw [absorb_var, h.var], ?_, ?_, ?_, ?_⟩
  · rw [absorb_bitlen, h.bitlen, lengthField_append_singleton]
  · rw [absorb_fill, fill_succ_toNat _ hfill, h.fill, hlen, hmod]
  · rw [hlen, hdiv, foldBlocks_append _ _ _ _ (by omega), ← h.chain, habsorb]
  · intro k hk
    rw [hlen, hmod] at hk
    rw [hlen, hdiv, ← h.readBuf_storeBuf_fill x (by omega)]
    exact State.readBuf_congr _ _ (by rw [habsorb, storeBuf_buf]) (by rw [habsorb, storeBuf_bufEpoch]) k

/-- Absorbing the byte that completes the block folds the block in and leaves nothing pending. -/
theorem State.Absorbed.absorb_of_eq (h : s.Absorbed v msg) (x : Byte) (heq : msg.length % 64 = 63) :
    (s.absorb x).Absorbed v (msg ++ [x]) := by
  have hlen : (msg ++ [x]).length = msg.length + 1 := List.length_append
  have hdiv : (msg.length + 1) / 64 = msg.length / 64 + 1 := by omega
  have hmod : (msg.length + 1) % 64 = 0 := by omega
  have hfill : s.fill.toNat = 63 := h.fill.trans heq
  have habsorb := s.absorb_of_eq x (BitVec.eq_of_toNat_eq hfill)
  have hblock : (s.storeBuf 63 x).block = blockOf (msg ++ [x]) (msg.length / 64) := Vector.ext fun i hi => by
    rw [State.getElem_block _ _ hi, getElem_blockOf _ _ _ hi, ← hfill, h.readBuf_storeBuf_fill x (by omega)]
  refine ⟨by rw [absorb_fin, h.fin], by rw [absorb_var, h.var], ?_, ?_, ?_, ?_⟩
  · rw [absorb_bitlen, h.bitlen, lengthField_append_singleton]
  · rw [habsorb, hlen, hmod]; rfl
  · rw [hlen, hdiv, foldBlocks_succ, foldBlocks_append _ _ _ _ (by omega), ← h.chain, ← hblock, ← h.var, habsorb]
    simp only [discardBuf_h, compressBuf_h, storeBuf_h, storeBuf_var]
  · intro k hk
    rw [hlen, hmod] at hk
    exact absurd hk (Nat.not_lt_zero k)

/-- Absorbing one byte (R102). -/
theorem State.Absorbed.absorb (h : s.Absorbed v msg) (x : Byte) : (s.absorb x).Absorbed v (msg ++ [x]) := by
  by_cases heq : msg.length % 64 = 63
  · exact h.absorb_of_eq x heq
  · exact h.absorb_of_ne x heq

/-- Absorbing bytes one by one (R105). -/
theorem State.Absorbed.absorbAll (h : s.Absorbed v msg) (xs : List Byte) : (s.absorbAll xs).Absorbed v (msg ++ xs) := by
  induction xs generalizing s msg with
  | nil => rwa [List.append_nil]
  | cons x xs ih =>
    rw [absorbAll_cons, List.append_cons]
    exact ih (h.absorb x)

/-! ### FINAL -/

/-- The single padded block is the last block of the padded message (R142). -/
theorem State.Absorbed.padSingle_eq (h : s.Absorbed v msg) (hr : msg.length % 64 ≤ 55) :
    s.padSingle = blockOf (padMessage msg) (msg.length / 64) := by
  have hoff := lengthOffset_of_le hr
  refine Vector.ext fun i hi => ?_
  rw [s.getElem_padSingle i hi, getElem_blockOf _ _ _ hi, getD_padMessage _ _ (by omega), h.fill, h.bitlen]
  by_cases hlength : 56 ≤ i
  · rw [if_pos (by omega), if_neg (by omega), if_neg (by omega), if_neg (by omega),
      show 64 * (msg.length / 64) + i - lengthOffset msg = i - 56 by omega]
  rw [if_neg (by omega)]
  obtain hlt | heq | hgt := lt_trichotomy i (msg.length % 64)
  · rw [if_neg (by omega), if_neg (by omega), if_pos (by omega), h.pending i hlt]
  · rw [if_neg (by omega), if_pos heq, if_neg (by omega), if_pos (by omega)]
  · rw [if_pos (by omega), if_neg (by omega), if_neg (by omega), if_pos (by omega)]

/-- The first block of the spillover case is the last but one of the padded message (R143). -/
theorem State.Absorbed.padSpill_eq (h : s.Absorbed v msg) (hr : 56 ≤ msg.length % 64) :
    s.padSpill = blockOf (padMessage msg) (msg.length / 64) := by
  have hoff := lengthOffset_of_gt hr
  refine Vector.ext fun i hi => ?_
  rw [s.getElem_padSpill i hi, getElem_blockOf _ _ _ hi, getD_padMessage _ _ (by omega), h.fill]
  obtain hlt | heq | hgt := lt_trichotomy i (msg.length % 64)
  · rw [if_neg (by omega), if_neg (by omega), if_pos (by omega), h.pending i hlt]
  · rw [if_neg (by omega), if_pos heq, if_neg (by omega), if_pos (by omega)]
  · rw [if_pos (by omega), if_neg (by omega), if_neg (by omega), if_pos (by omega)]

/-- The second block of the spillover case is the last of the padded message (R143). -/
theorem State.Absorbed.padLength_eq (h : s.Absorbed v msg) (hr : 56 ≤ msg.length % 64) :
    s.padLength = blockOf (padMessage msg) (msg.length / 64 + 1) := by
  have hoff := lengthOffset_of_gt hr
  refine Vector.ext fun i hi => ?_
  rw [s.getElem_padLength i hi, getElem_blockOf _ _ _ hi, getD_padMessage _ _ (by omega), h.bitlen,
    if_neg (show ¬64 * (msg.length / 64 + 1) + i < msg.length by omega),
    if_neg (show ¬64 * (msg.length / 64 + 1) + i = msg.length by omega)]
  by_cases hlength : 56 ≤ i
  · rw [if_pos (by omega), if_neg (by omega), show 64 * (msg.length / 64 + 1) + i - lengthOffset msg = i - 56 by omega]
  · rw [if_neg (by omega), if_pos (by omega), if_pos (by omega)]

/-- FINAL completes the hash of the absorbed message (R107, R149). -/
theorem State.Absorbed.afterFinal_h (h : s.Absorbed v msg) : s.afterFinal.h = hashMessage v msg := by
  have hlen := length_padMessage msg
  have hfold : foldBlocks v (padMessage msg) (msg.length / 64) = s.h := by
    rw [h.chain, padMessage, List.append_assoc, foldBlocks_append _ _ _ _ (by omega)]
  rw [State.afterFinal_h, hashMessage_eq_foldBlocks, h.var]
  obtain hr | hr := le_or_gt (msg.length % 64) 55
  · rw [lengthOffset_of_le hr] at hlen
    rw [show (padMessage msg).length / 64 = msg.length / 64 + 1 by omega, foldBlocks_succ, hfold,
      s.padBlocks_of_le (by rw [h.fill]; exact hr), ← h.padSingle_eq hr, List.foldl_cons, List.foldl_nil]
  · rw [lengthOffset_of_gt hr] at hlen
    rw [show (padMessage msg).length / 64 = msg.length / 64 + 1 + 1 by omega, foldBlocks_succ, foldBlocks_succ, hfold,
      s.padBlocks_of_gt (by rw [h.fill]; exact hr), ← h.padSpill_eq hr, ← h.padLength_eq hr,
      List.foldl_cons, List.foldl_cons, List.foldl_nil]

end Sys2Proof.Machine

/-! SUPPORT. The commands of the host library's hash program, performed and run. -/

namespace Sys2Proof.Machine

variable {s t : State} {v : Variant} {msg : List Byte}

/-! ### The commands of the program (R84) -/

/-- A well-formed command of the source's `update`: UPDZ, or a UPD of 1 to 4 bytes (R84). -/
def IsUpdate (i : Instr) : Prop := i = .updz ∨ ∃ bytes, i = .upd bytes ∧ i.wellFormed = true

theorem IsUpdate.wellFormed {i : Instr} (h : IsUpdate i) : i.wellFormed = true := by
  obtain rfl | ⟨bytes, -, hw⟩ := h
  · rfl
  · exact hw

/-- The pieces are the bytes of the message, in order. -/
theorem flatten_pieces (msg : List Byte) : (pieces msg).flatten = msg := by
  induction msg using pieces.induct with
  | case1 a b c d rest ih => rw [pieces, List.flatten_cons, ih]; rfl
  | case2 => rfl
  | case3 short hlong hnil => rw [pieces.eq_3 short hlong hnil, List.flatten_singleton]

/-- Every piece has 1 to 4 bytes. -/
theorem length_of_mem_pieces (msg p : List Byte) (hp : p ∈ pieces msg) : 1 ≤ p.length ∧ p.length ≤ 4 := by
  induction msg using pieces.induct with
  | case1 a b c d rest ih =>
    rw [pieces, List.mem_cons] at hp
    obtain rfl | hp := hp
    · simp
    · exact ih hp
  | case2 => cases hp
  | case3 short hlong hnil =>
    rw [pieces.eq_3 short hlong hnil, List.mem_singleton] at hp
    subst hp
    match p, hlong, hnil with
    | [], _, hnil => exact (hnil rfl).elim
    | [_], _, _ => simp
    | [_, _], _, _ => simp
    | [_, _, _], _, _ => simp
    | a :: b :: c :: d :: rest, hlong, _ => exact (hlong a b c d rest rfl).elim

/-- `UPDATE msg` carries the bytes of `msg`, in order (R84). -/
theorem flatMap_messageOf_updateProgram (msg : List Byte) : (updateProgram msg).flatMap messageOf = msg := by
  unfold updateProgram
  split_ifs with hnil
  · rw [hnil]; rfl
  · rw [List.flatMap_map]
    change (pieces msg).flatMap id = msg
    rw [List.flatMap_id, flatten_pieces]

theorem isUpdate_of_mem_updateProgram {i : Instr} (h : i ∈ updateProgram msg) : IsUpdate i := by
  unfold updateProgram at h
  split_ifs at h with hnil
  · exact .inl (List.mem_singleton.1 h)
  · obtain ⟨p, hp, rfl⟩ := List.mem_map.1 h
    have hlen := length_of_mem_pieces msg p hp
    exact .inr ⟨p, rfl, by simp [Instr.wellFormed, hlen]⟩

/-! ### One command -/

/-- INIT answers OK and starts an empty message (R104). -/
theorem exec_init_absorbed (s : State) (v : Variant) :
    ∃ t, exec (.init v) s = .next t ∧ t.Absorbed v [] ∧ t.rspStatus = 0 ∧ t.rspData = 0 :=
  ⟨_, exec_init s v, (s.absorbed_initialise v).of_sameArch (State.sameArch_respond _ _ _), rfl, rfl⟩

/-- An update command answers OK and extends the absorbed message by its bytes (R105, R106). -/
theorem State.Absorbed.exec_update (h : s.Absorbed v msg) {i : Instr} (hi : IsUpdate i) :
    ∃ t, exec i s = .next t ∧ t.Absorbed v (msg ++ messageOf i) ∧ t.rspStatus = 0 ∧ t.rspData = 0 := by
  obtain rfl | ⟨bytes, rfl, -⟩ := hi
  · refine ⟨_, exec_updz_active s h.fin, ?_, rfl, rfl⟩
    rw [messageOf, List.append_nil]
    exact h.of_sameArch (State.sameArch_respond _ _ _)
  · exact ⟨_, exec_upd_active s bytes h.fin, (h.absorbAll bytes).of_sameArch (State.sameArch_respond _ _ _), rfl, rfl⟩

/-- FINAL answers OK with the digest of the absorbed message (R107, R109). -/
theorem State.Absorbed.exec_final (h : s.Absorbed v msg) :
    ∃ t, exec .final s = .next t ∧ t.rspStatus = 0 ∧ t.rspData = digest (hashMessage v msg) := by
  refine ⟨_, exec_final_active s h.fin, rfl, ?_⟩
  rw [State.respond_rspData, h.afterFinal_h]

/-! ### Two edges a command -/

/-- The port is idle, and a host that takes every response offers the words `ws` (log entry 5). -/
structure State.Offers (s : State) (ws : List CmdWord) : Prop where
  idle : s.rspPending = false
  pins : s.pins = []
  cmds : s.cmds = ws

theorem State.nextPins_of_nil (h : s.pins = []) : s.nextPins = s := by
  rw [State.nextPins, h, List.tail_nil, ← h]

theorem State.pinsNow_of_nil (h : s.pins = []) : s.pinsNow = idlePins := by
  rw [State.pinsNow, h, List.headD_nil]

theorem run_two_of_steps {u : State} (hst : step s = .next t) (htu : step t = .next u) : core.run 2 s = .next u := by
  have hst' : core.step s = .next t := hst
  have htu' : core.step t = .next u := htu
  simp only [Host.Core.run, hst', htu']

/-- One step performs the offered word and the next delivers its response (R63). -/
theorem State.Offers.run_two {w : CmdWord} {ws : List CmdWord} (h : s.Offers (w :: ws))
    (hx : command w s.nextCmd = .next t) :
    core.run 2 s = .next t.takeResponse ∧ t.takeResponse.Offers ws ∧
      t.takeResponse.taken = s.taken ++ [⟨t.rspStatus, t.rspData⟩] := by
  obtain ⟨hcmds, hpins, htaken, -, hpending⟩ := command_frame _ _ hx
  have hnil : t.pins = [] := hpins.trans h.pins
  have hoffered : s.offered = some w := by
    rw [State.offered, State.pinsNow_of_nil h.pins, h.cmds]; rfl
  have hfirst : step s = .next t := by
    rw [← hx, ← congrArg State.nextCmd (State.nextPins_of_nil h.pins)]
    exact step_of_offered s (by rw [State.pinsNow_of_nil h.pins]; rfl) h.idle hoffered
  have hsecond : step t = .next t.takeResponse := by
    conv_rhs => rw [← State.nextPins_of_nil hnil]
    exact step_of_held t (by rw [State.pinsNow_of_nil hnil]; rfl) hpending (by rw [State.pinsNow_of_nil hnil]; rfl)
  refine ⟨run_two_of_steps hfirst hsecond, ⟨rfl, hnil, ?_⟩, ?_⟩
  · rw [State.takeResponse_cmds, hcmds, State.nextCmd_cmds, h.cmds, List.tail_cons]
  · rw [State.takeResponse_taken, htaken, State.nextCmd_taken]

/-- Two steps perform an offered well-formed instruction and deliver its response. -/
theorem State.Offers.run_encode {i : Instr} {ws : List CmdWord} (h : s.Offers (encode i :: ws))
    (hi : i.wellFormed = true) (hx : exec i s.nextCmd = .next t) :
    core.run 2 s = .next t.takeResponse ∧ t.takeResponse.Offers ws ∧
      t.takeResponse.taken = s.taken ++ [⟨t.rspStatus, t.rspData⟩] :=
  h.run_two ((command_of_ok _ (decode_encode hi)).trans hx)

/-! ### The program -/

/-- Running `INIT v` answers OK and starts an empty message. -/
theorem State.Offers.run_init {ws : List CmdWord} (h : s.Offers (encode (.init v) :: ws)) :
    ∃ t : State, core.run 2 s = .next t ∧ t.Offers ws ∧ t.Absorbed v [] ∧ t.taken = s.taken ++ [⟨0, 0⟩] := by
  obtain ⟨t, hx, habs, hst, hdata⟩ := exec_init_absorbed s.nextCmd v
  obtain ⟨hrun, hoff, htaken⟩ := h.run_encode rfl hx
  exact ⟨_, hrun, hoff, habs.of_sameArch t.sameArch_takeResponse, by rw [htaken, hst, hdata]⟩

/-- Running update commands answers OK to each and extends the absorbed message by their bytes. -/
theorem State.Offers.run_updates {is : List Instr} {ws : List CmdWord} (h : s.Offers (is.map encode ++ ws))
    (habs : s.Absorbed v msg) (his : ∀ i ∈ is, IsUpdate i) :
    ∃ t : State, core.run (2 * is.length) s = .next t ∧ t.Offers ws ∧ t.Absorbed v (msg ++ is.flatMap messageOf) ∧
      t.taken = s.taken ++ List.replicate is.length ⟨0, 0⟩ := by
  induction is generalizing s msg with
  | nil => exact ⟨s, rfl, h, by simpa using habs, by simp⟩
  | cons i is ih =>
    rw [List.forall_mem_cons] at his
    obtain ⟨hi, his⟩ := his
    obtain ⟨u, hx, hu, hst, hdata⟩ := (habs.of_sameArch s.sameArch_nextCmd).exec_update hi
    obtain ⟨hrun, hoff, htaken⟩ := h.run_encode hi.wellFormed hx
    obtain ⟨t, hrest, hofft, habst, htakent⟩ := ih hoff (hu.of_sameArch u.sameArch_takeResponse) his
    refine ⟨t, ?_, hofft, ?_, ?_⟩
    · rw [List.length_cons, Nat.mul_succ, Nat.add_comm, run_add s 2 _ hrun, hrest]
    · rwa [List.flatMap_cons, ← List.append_assoc]
    · rw [htakent, htaken, hst, hdata, List.length_cons, List.replicate_succ, List.append_assoc, List.singleton_append]

/-- Running `FINAL` delivers the digest of the absorbed message. -/
theorem State.Offers.run_final {ws : List CmdWord} (h : s.Offers (encode .final :: ws)) (habs : s.Absorbed v msg) :
    ∃ t : State, core.run 2 s = .next t ∧ t.taken = s.taken ++ [⟨0, digest (hashMessage v msg)⟩] := by
  obtain ⟨t, hx, hst, hdata⟩ := (habs.of_sameArch s.sameArch_nextCmd).exec_final
  obtain ⟨hrun, -, htaken⟩ := h.run_encode rfl hx
  exact ⟨_, hrun, by rw [htaken, hst, hdata]⟩

/-- Settles O47: the engine's state after `INIT` and each command of `UPDATE` is the one that has absorbed the bytes so far, and from it
FINAL completes the fold over the padded message. -/
theorem engineHashesWholeMessage : Obligations.EngineHashesWholeMessage := by
  unfold Obligations.EngineHashesWholeMessage
  intro v msg s hidle hpins hcmds
  have hs : s.Offers (encode (.init v) :: ((updateProgram msg).map encode ++ [encode .final])) :=
    ⟨hidle, hpins, by rw [hcmds, hashProgram, List.map_append, List.map_cons]; rfl⟩
  obtain ⟨t₁, hrun₁, hoff₁, habs₁, htaken₁⟩ := hs.run_init
  obtain ⟨t₂, hrun₂, hoff₂, habs₂, htaken₂⟩ := hoff₁.run_updates habs₁ fun _ => isUpdate_of_mem_updateProgram
  rw [List.nil_append, flatMap_messageOf_updateProgram] at habs₂
  obtain ⟨t₃, hrun₃, htaken₃⟩ := hoff₂.run_final habs₂
  have hlen : (hashProgram v msg).length = (updateProgram msg).length + 1 + 1 := by
    rw [hashProgram, List.length_append, List.length_cons, List.length_singleton]
  refine ⟨t₃, ?_, ?_⟩
  · rw [hlen, show 2 * ((updateProgram msg).length + 1 + 1) = 2 + (2 * (updateProgram msg).length + 2) by omega,
      run_add s 2 _ hrun₁, run_add t₁ _ 2 hrun₂, hrun₃]
  · rw [htaken₃, htaken₂, htaken₁, hlen, Nat.add_sub_cancel, List.replicate_succ]
    simp only [List.append_assoc, List.cons_append, List.nil_append]

end Sys2Proof.Machine

/-! SUPPORT. What a step keeps: a property that every operation of a step keeps is kept by the step, and so are the fill invariant and the
machine's invariant. -/

namespace Sys2Proof.Machine

variable {s t : State}

/-! ### From the operations to the step -/

/-- Each operation that a command or a rising edge is made of keeps `P`, under the condition on which `exec` and `step` perform it. -/
structure KeptByOperations (P : State → Prop) : Prop where
  respond : ∀ (s : State) (st : Status) (d : RspData), P s → P (s.respond st d)
  initialise : ∀ (s : State) (v : Variant), P s → P (s.initialise v)
  absorb : ∀ (s : State) (x : Byte), s.fin = .active → P s → P (s.absorb x)
  afterFinal : ∀ s : State, P s → P s.afterFinal
  nextPins : ∀ s : State, P s → P s.nextPins
  nextCmd : ∀ s : State, P s → P s.nextCmd
  takeResponse : ∀ s : State, s.rspPending = true → P s → P s.takeResponse
  hardwareReset : ∀ s : State, P s → P s.hardwareReset

namespace KeptByOperations

variable {P : State → Prop} (hP : KeptByOperations P)

include hP

theorem of_absorbAll (xs : List Byte) (hf : s.fin = .active) (hs : P s) : P (s.absorbAll xs) := by
  induction xs generalizing s with
  | nil => exact hs
  | cons x xs ih => exact ih (by rw [State.absorb_fin, hf]) (hP.absorb s x hf hs)

theorem of_exec {i : Instr} (hs : P s) (h : exec i s = .next t) : P t := by
  obtain ⟨-, rfl⟩ | ⟨v, -, rfl⟩ | ⟨-, rfl⟩ | ⟨-, -, rfl⟩ | ⟨hf, bytes, -, rfl⟩ | ⟨-, -, rfl⟩ | ⟨-, -, rfl⟩ := exec_cases s t h
  · exact hP.respond _ _ _ hs
  · exact hP.respond _ _ _ (hP.initialise s v hs)
  · exact hP.respond _ _ _ hs
  · exact hP.respond _ _ _ hs
  · exact hP.respond _ _ _ (hP.of_absorbAll bytes hf hs)
  · exact hP.respond _ _ _ (hP.afterFinal s hs)
  · exact hP.respond _ _ _ hs

theorem of_command {w : CmdWord} (hs : P s) (h : command w s = .next t) : P t := by
  obtain ⟨e, -, rfl⟩ | ⟨i, -, hx⟩ := command_cases s t h
  · exact hP.respond _ _ _ hs
  · exact hP.of_exec hs hx

theorem of_step (hs : P s) (h : step s = .next t) : P t := by
  obtain ⟨-, rfl⟩ | ⟨-, hp, -, rfl⟩ | ⟨-, -, -, w, -, hx⟩ | ⟨-, -, rfl⟩ := step_cases s t h
  · exact hP.hardwareReset _ (hP.nextPins s hs)
  · exact hP.takeResponse _ hp (hP.nextPins s hs)
  · exact hP.of_command (hP.nextCmd _ (hP.nextPins s hs)) hx
  · exact hP.nextPins s hs

end KeptByOperations

/-! ### The fill invariant (R25) -/

theorem State.fillInv_of_zero (hb : s.bitlen = 0) (hf : s.fill = 0) : s.FillInv := by
  rw [State.FillInv, hb, hf]
  exact ⟨rfl, fun _ => rfl⟩

/-- One byte more: BITLEN grows by 8 modulo 2^64 and FILL by 1 modulo 64, and 64 divides 2^64 / 8. -/
theorem State.FillInv.absorb (h : s.FillInv) (x : Byte) : (s.absorb x).FillInv := by
  obtain ⟨hbits, hfill⟩ := h
  have hlt := s.bitlen.isLt
  have hb : (s.absorb x).bitlen.toNat = (s.bitlen.toNat + 8) % 2 ^ 64 := by rw [absorb_bitlen, BitVec.toNat_add]; rfl
  have hf : (s.absorb x).fill.toNat = (s.fill.toNat + 1) % 2 ^ 6 := by rw [absorb_fill, BitVec.toNat_add]; rfl
  rw [State.FillInv, absorb_fin, hb, hf]
  refine ⟨by omega, fun hactive => ?_⟩
  have := hfill hactive
  omega

/-- After FINAL only BITLEN is left to speak of, and it is unchanged (R146). -/
theorem State.FillInv.afterFinal (h : s.FillInv) : s.afterFinal.FillInv := ⟨h.1, fun hf => by cases hf⟩

theorem fillInv_keptByOperations : KeptByOperations State.FillInv where
  respond _ _ _ h := h
  initialise _ _ _ := State.fillInv_of_zero rfl rfl
  absorb _ x _ h := h.absorb x
  afterFinal _ h := h.afterFinal
  nextPins _ h := h
  nextCmd _ h := h
  takeResponse _ _ h := h
  hardwareReset _ _ := State.fillInv_of_zero rfl rfl

/-! ### The machine's invariant -/

@[simp] theorem State.absorb_rspPending (s : State) (x : Byte) : (s.absorb x).rspPending = s.rspPending := by
  by_cases h : s.fill = 63
  · simp [s.absorb_of_eq x h]
  · simp [s.absorb_of_ne x h]

@[simp] theorem State.absorb_rspStatus (s : State) (x : Byte) : (s.absorb x).rspStatus = s.rspStatus := by
  by_cases h : s.fill = 63
  · simp [s.absorb_of_eq x h]
  · simp [s.absorb_of_ne x h]

/-- No status has the code 3 (R203). -/
theorem Status.code_ne_three (st : Status) : st.code ≠ 3 := by cases st <;> decide

/-- Absorbing a byte keeps BUF in canonical form: it is written at FILL, or BUF is released. -/
theorem State.absorb_bufWf (x : Byte) (h : Memory.wf s.buf = true) : Memory.wf (s.absorb x).buf = true := by
  by_cases h63 : s.fill = 63
  · rw [s.absorb_of_eq x h63]; rfl
  · rw [s.absorb_of_ne x h63]; exact Memory.wf_write _ _ _ h s.fill.isLt

/-- Once a byte is absorbed it is listed, and so are the bytes pending before it. -/
theorem State.absorb_bufFilled (x : Byte) (h : ∀ a, a < s.fill.toNat → (Memory.read? s.buf a).isSome = true) (a : Nat)
    (ha : a < (s.absorb x).fill.toNat) : (Memory.read? (s.absorb x).buf a).isSome = true := by
  by_cases h63 : s.fill = 63
  · rw [s.absorb_of_eq x h63] at ha
    exact absurd ha (Nat.not_lt_zero a)
  · rw [absorb_fill, fill_succ_toNat _ h63] at ha
    rw [s.absorb_of_ne x h63, Memory.read?_write]
    split_ifs with heq
    · rfl
    · exact h a (by omega)

theorem State.Inv.absorb (h : s.Inv) (x : Byte) (hf : s.fin = .active) : (s.absorb x).Inv where
  bufWf := State.absorb_bufWf x h.bufWf
  bufFilled := State.absorb_bufFilled x h.bufFilled
  fillInv := h.fillInv.absorb x
  finalizedEmpty hfinal := by rw [absorb_fin, hf] at hfinal; cases hfinal
  heldStatus := by rw [absorb_rspPending, absorb_rspStatus]; exact h.heldStatus
  takenStatus := by rw [absorb_taken]; exact h.takenStatus

/-- The response taken is the one that was held. -/
theorem State.Inv.takeResponse (h : s.Inv) (hp : s.rspPending = true) : s.takeResponse.Inv :=
  { h with
    heldStatus := fun hheld => by cases hheld
    takenStatus := fun r hr => by
      rw [takeResponse_taken, List.mem_append, List.mem_singleton] at hr
      obtain hr | rfl := hr
      · exact h.takenStatus r hr
      · exact h.heldStatus hp }

theorem inv_keptByOperations : KeptByOperations State.Inv where
  respond _ st _ h := { h with heldStatus := fun _ => st.code_ne_three }
  initialise _ _ h :=
    { h with
      bufFilled := fun a ha => absurd ha (Nat.not_lt_zero a)
      fillInv := State.fillInv_of_zero rfl rfl
      finalizedEmpty := fun _ => rfl }
  absorb _ x hf h := h.absorb x hf
  afterFinal _ h :=
    { h with
      bufWf := rfl
      bufFilled := fun a ha => absurd ha (Nat.not_lt_zero a)
      fillInv := h.fillInv.afterFinal
      finalizedEmpty := fun _ => rfl }
  nextPins _ h := { h with }
  nextCmd _ h := { h with }
  takeResponse _ hp h := h.takeResponse hp
  hardwareReset _ h :=
    { h with
      bufWf := rfl
      bufFilled := fun a ha => absurd ha (Nat.not_lt_zero a)
      fillInv := State.fillInv_of_zero rfl rfl
      finalizedEmpty := fun _ => rfl
      heldStatus := fun hheld => by cases hheld }

/-- Settles O8: every operation that a step is made of keeps the invariant. -/
theorem stepKeepsInvariant : Obligations.StepKeepsInvariant := by
  unfold Obligations.StepKeepsInvariant
  intro s t hs hstep
  exact inv_keptByOperations.of_step hs hstep

/-- Settles O9: every operation that a step is made of keeps the fill invariant. -/
theorem fillInvariantHoldsAndIsKept : Obligations.FillInvariantHoldsAndIsKept := by
  unfold Obligations.FillInvariantHoldsAndIsKept
  exact ⟨State.fillInv_of_zero rfl rfl, fun s t hs hstep => fillInv_keptByOperations.of_step hs hstep⟩

/-- Settles O7: after reset nothing is pending, held or taken. -/
theorem invariantHoldsAtReset : Obligations.InvariantHoldsAtReset where
  bufWf := rfl
  bufFilled a ha := absurd ha (Nat.not_lt_zero a)
  fillInv := State.fillInv_of_zero rfl rfl
  finalizedEmpty _ := rfl
  heldStatus hheld := by cases hheld
  takenStatus r hr := by cases hr

end Sys2Proof.Machine

/-! SUPPORT. What each command word does to FIN, VAR and H0..H4, and when a step changes them. -/

namespace Sys2Proof.Machine

variable {s t : State}

/-- Settles O28, by the cases of a command word: FINAL finalizes while Active, and while Finalized it leaves the engine so. -/
theorem lifecycleTransitions : Obligations.LifecycleTransitions := by
  unfold Obligations.LifecycleTransitions
  refine ⟨fun w s => ?_, fun s hrst => ⟨_, step_reset s hrst, rfl⟩⟩
  obtain ⟨t, ht⟩ := command_next s w
  refine ⟨t, ht, ?_⟩
  obtain ⟨e, hd, rfl⟩ | ⟨i, hd, hx⟩ := command_cases s t ht
  · rw [hd]; rfl
  rw [hd]
  obtain ⟨rfl, rfl⟩ | ⟨v, rfl, rfl⟩ | ⟨rfl, rfl⟩ | ⟨-, rfl, rfl⟩ | ⟨-, bytes, rfl, rfl⟩ | ⟨-, rfl, rfl⟩ |
    ⟨hf, rfl | rfl | ⟨bytes, rfl⟩, rfl⟩ := exec_cases s t hx
  · rfl
  · rfl
  · rfl
  · rfl
  · exact s.absorbAll_fin bytes
  · rfl
  · rfl
  · exact hf
  · rfl

/-- VAR after a command word: an INIT sets its operand, every other word leaves it (R27). -/
theorem command_var {w : CmdWord} (h : command w s = .next t) :
    decode w = .ok (.init t.var) ∨ t.var = s.var := by
  obtain ⟨e, -, rfl⟩ | ⟨i, hd, hx⟩ := command_cases s t h
  · exact .inr rfl
  obtain ⟨-, rfl⟩ | ⟨v, rfl, rfl⟩ | ⟨-, rfl⟩ | ⟨-, -, rfl⟩ | ⟨-, bytes, -, rfl⟩ | ⟨-, -, rfl⟩ | ⟨-, -, rfl⟩ := exec_cases s t hx
  · exact .inr rfl
  · exact .inl hd
  · exact .inr rfl
  · exact .inr rfl
  · exact .inr (s.absorbAll_var bytes)
  · exact .inr rfl
  · exact .inr rfl

/-- Settles O29, by the cases of a step: only hardware reset and an accepted word can touch VAR, and of the words only INIT. -/
theorem variantChangesOnlyByInitOrReset : Obligations.VariantChangesOnlyByInitOrReset := by
  unfold Obligations.VariantChangesOnlyByInitOrReset
  intro s t hstep hne
  obtain ⟨hrst, rfl⟩ | ⟨-, -, -, rfl⟩ | ⟨-, -, hready, w, hoffered, hx⟩ | ⟨-, -, rfl⟩ := step_cases s t hstep
  · exact .inl ⟨hrst, rfl⟩
  · exact absurd rfl hne
  · obtain hinit | hsame := command_var hx
    · exact .inr ⟨w, t.var, hoffered, hready, hinit, rfl⟩
    · exact absurd hsame hne
  · exact absurd rfl hne

/-- Bytes that do not complete the block leave H0..H4. -/
theorem State.absorbAll_h_of_lt (xs : List Byte) (h : s.fill.toNat + xs.length < 64) : (s.absorbAll xs).h = s.h := by
  rw [s.absorbAll_of_lt xs h]

/-- The commands that replace H0..H4 in the state `s` (R20). -/
def State.ChainWrittenBy (s : State) (i : Instr) : Prop :=
  (∃ v, i = .init v) ∨
  (∃ bytes, i = .upd bytes ∧ s.fin = .active ∧ 64 ≤ s.fill.toNat + bytes.length) ∨
  (i = .final ∧ s.fin = .active)

/-- A command word that does not write H0..H4 leaves them (R20). -/
theorem command_h {w : CmdWord} (h : command w s = .next t) :
    (∃ i, decode w = .ok i ∧ s.ChainWrittenBy i) ∨ t.h = s.h := by
  obtain ⟨e, -, rfl⟩ | ⟨i, hd, hx⟩ := command_cases s t h
  · exact .inr rfl
  obtain ⟨-, rfl⟩ | ⟨v, hi, -⟩ | ⟨-, rfl⟩ | ⟨-, -, rfl⟩ | ⟨hf, bytes, hi, rfl⟩ | ⟨hf, hi, -⟩ | ⟨-, -, rfl⟩ := exec_cases s t hx
  · exact .inr rfl
  · exact .inl ⟨i, hd, .inl ⟨v, hi⟩⟩
  · exact .inr rfl
  · exact .inr rfl
  · obtain hlt | hge := Nat.lt_or_ge (s.fill.toNat + bytes.length) 64
    · exact .inr (State.absorbAll_h_of_lt bytes hlt)
    · exact .inl ⟨i, hd, .inr (.inl ⟨bytes, hi, hf, hge⟩)⟩
  · exact .inl ⟨i, hd, .inr (.inr ⟨hi, hf⟩)⟩
  · exact .inr rfl

/-- Settles O30, by the cases of a step: only hardware reset and an accepted word can touch H0..H4, and of the words only those that
initialise or compress. -/
theorem chainChangesOnlyByResetAndCompression : Obligations.ChainChangesOnlyByResetAndCompression := by
  unfold Obligations.ChainChangesOnlyByResetAndCompression
  intro s t hstep hne
  obtain ⟨hrst, -⟩ | ⟨-, -, -, rfl⟩ | ⟨-, -, hready, w, hoffered, hx⟩ | ⟨-, -, rfl⟩ := step_cases s t hstep
  · exact .inl hrst
  · exact absurd rfl hne
  · obtain ⟨i, hd, hwrites⟩ | hsame := command_h hx
    · exact .inr ⟨w, i, hoffered, hready, hd, hwrites⟩
    · exact absurd hsame hne
  · exact absurd rfl hne

end Sys2Proof.Machine

/-! SUPPORT. No command reads `pc`: every operation of a command commutes with setting it (R33). -/

namespace Sys2Proof.Machine

variable {s t : State}

theorem State.absorb_setPc (s : State) (x : Byte) (n : Nat) :
    { s with pc := n }.absorb x = { s.absorb x with pc := n } := by
  by_cases h : s.fill = 63
  · rw [s.absorb_of_eq x h, State.absorb_of_eq { s with pc := n } x h]; rfl
  · rw [s.absorb_of_ne x h, State.absorb_of_ne { s with pc := n } x h]

theorem State.absorbAll_setPc (s : State) (xs : List Byte) (n : Nat) :
    { s with pc := n }.absorbAll xs = { s.absorbAll xs with pc := n } := by
  induction xs generalizing s with
  | nil => rfl
  | cons x xs ih => rw [absorbAll_cons, absorb_setPc, ih, absorbAll_cons]

theorem State.afterFinal_setPc (s : State) (n : Nat) : { s with pc := n }.afterFinal = { s.afterFinal with pc := n } := by
  have hpad : { s with pc := n }.padBlocks = s.padBlocks := State.padBlocks_congr _ _ rfl rfl rfl rfl
  rw [State.afterFinal, hpad]
  rfl

theorem exec_setPc {i : Instr} (h : exec i s = .next t) (n : Nat) :
    exec i { s with pc := n } = .next { t with pc := n + 1 } := by
  obtain ⟨rfl, rfl⟩ | ⟨v, rfl, rfl⟩ | ⟨rfl, rfl⟩ | ⟨hf, rfl, rfl⟩ | ⟨hf, bytes, rfl, rfl⟩ | ⟨hf, rfl, rfl⟩ |
    ⟨hf, rfl | rfl | ⟨bytes, rfl⟩, rfl⟩ := exec_cases s t h
  · rfl
  · rfl
  · rfl
  · exact exec_updz_active { s with pc := n } hf
  · rw [exec_upd_active { s with pc := n } bytes hf, State.absorbAll_setPc]; rfl
  · rw [exec_final_active { s with pc := n } hf, State.afterFinal_setPc]; rfl
  · exact exec_updz_finalized { s with pc := n } hf
  · exact exec_final_finalized { s with pc := n } hf
  · exact exec_upd_finalized { s with pc := n } bytes hf

theorem command_setPc {w : CmdWord} (h : command w s = .next t) (n : Nat) :
    command w { s with pc := n } = .next { t with pc := n + 1 } := by
  obtain ⟨e, hd, rfl⟩ | ⟨i, hd, hx⟩ := command_cases s t h
  · exact command_of_error _ hd
  · rw [command_of_ok _ hd, exec_setPc hx]

/-- While a response is held no command is accepted (R227). -/
theorem State.cmdReady_of_pending (h : s.rspPending = true) : s.cmdReady = false := by
  rw [State.cmdReady, h, Bool.not_true, Bool.and_false]

/-- Hardware reset clears `pc`, an accepted word advances it, and no other edge changes it (R33, R220). -/
theorem step_pc (h : step s = .next t) :
    t.pc = if s.pinsNow.rst = true then 0
      else if s.cmdReady = true ∧ s.offered.isSome = true then s.pc + 1 else s.pc := by
  obtain ⟨hrst, rfl⟩ | ⟨hrst, hp, -, rfl⟩ | ⟨hrst, -, hready, w, hoffered, hx⟩ | ⟨hrst, hidle, rfl⟩ := step_cases s t h
  · rw [if_pos hrst, State.hardwareReset_pc]
  · simp [hrst, State.cmdReady_of_pending hp]
  · obtain ⟨-, -, -, hpc, -⟩ := command_frame _ _ hx
    simp [hrst, hready, hoffered, hpc]
  · obtain ⟨hp, -⟩ | ⟨-, hnone⟩ := hidle
    · simp [hrst, State.cmdReady_of_pending hp]
    · simp [hrst, hnone]

/-- Settles O32: every operation of a command commutes with setting `pc`, and a step counts by `step_pc`. -/
theorem pcCountsCompletedCommands : Obligations.PcCountsCompletedCommands := by
  unfold Obligations.PcCountsCompletedCommands
  refine ⟨fun w s => ?_, fun s t => step_pc⟩
  obtain ⟨t, ht⟩ := command_next s w
  obtain ⟨-, -, -, hpc, -⟩ := command_frame s t ht
  exact ⟨t, ht, hpc, command_setPc ht⟩

end Sys2Proof.Machine

/-! SUPPORT. The response register, the initial values and the status word. -/

namespace Sys2Proof.Machine

variable {s : State}

/-- A held response that the host is not ready for stays, and only the host's pin levels of this edge are used up (R227). -/
theorem step_of_held_not_ready (hr : s.pinsNow.rst = false) (hp : s.rspPending = true) (hy : s.pinsNow.rspReady = false) :
    step s = .next s.nextPins := by
  unfold step edge
  rw [hr, hy, Bool.and_false, if_neg Bool.false_ne_true, if_neg Bool.false_ne_true, State.cmdReady_of_pending hp]
  cases s.offered <;> rfl

/-- Settles O40: the two edges with a response held are a wait and a delivery. -/
theorem heldResponseIsDeliveredOnce : Obligations.HeldResponseIsDeliveredOnce := by
  unfold Obligations.HeldResponseIsDeliveredOnce
  intro s hrst hp
  refine ⟨State.cmdReady_of_pending hp, ?_, step_of_held_not_ready hrst hp, fun hready => ?_⟩
  · rw [State.rspValid, hrst, hp]; rfl
  · exact ⟨_, step_of_held s hrst hp hready, rfl, rfl, ⟨rfl, rfl, rfl, rfl, rfl, fun _ _ => rfl⟩, rfl, rfl⟩

/-- Settles O1: reset, the reset edge and INIT all load `initialChain`. -/
theorem initAndResetLoadInitialChain : Obligations.InitAndResetLoadInitialChain := by
  unfold Obligations.InitAndResetLoadInitialChain
  exact ⟨rfl, fun s hrst => ⟨_, step_reset s hrst, s.nextPins.hardwareReset_h⟩,
    fun v s => ⟨_, exec_init s v, s.initialise_h v⟩⟩

/-- Settles O2: the fields of `State.reset`, one by one. -/
theorem resetStateHasSpecifiedValues : Obligations.ResetStateHasSpecifiedValues := by
  unfold Obligations.ResetStateHasSpecifiedValues
  exact ⟨rfl, rfl, rfl, rfl, rfl, rfl, rfl⟩

/-! ### The status word, bit by bit (R29) -/

@[simp] theorem getElem_finBit_zero (f : Lifecycle) : (finBit f)[0] = decide (f = .finalized) := by cases f <;> rfl

@[simp] theorem getElem_variantBit_zero (v : Variant) : (variantBit v)[0] = decide (v = .sha0) := by cases v <;> rfl

theorem State.getLsbD_statusWord (s : State) (i : Nat) :
    s.statusWord.getLsbD i =
      if i = 0 then decide (s.fin = .finalized)
      else if i = 1 then decide (s.var = .sha0)
      else if i < 8 then s.fill.getLsbD (i - 2)
      else false := by
  unfold State.statusWord
  simp only [BitVec.getLsbD_append]
  by_cases h0 : i = 0
  · simp [h0]
  by_cases h1 : i = 1
  · simp [h1]
  have hfin : ¬i < 1 := by omega
  have hvar : ¬i - 1 < 1 := by omega
  rw [if_neg hfin, if_neg hvar, if_neg h0, if_neg h1, Nat.sub_sub]
  by_cases h8 : i < 8
  · rw [if_pos (by omega), if_pos h8]
  · rw [if_neg (by omega), if_neg h8, BitVec.getLsbD_zero]

/-- Settles O16: the response is the status word with zeros above it. -/
theorem statusWordBits : Obligations.StatusWordBits := by
  unfold Obligations.StatusWordBits
  refine fun s => ⟨_, exec_stat s, fun i hi => ?_⟩
  rw [State.respond_rspData, BitVec.getLsbD_setWidth, decide_eq_true hi, Bool.true_and, s.getLsbD_statusWord i]

end Sys2Proof.Machine

/-! SUPPORT. Architectural equality is kept by every command, which answers alike on both sides; so a run of offered words gives the
responses of the commands composed (R63). -/

namespace Sys2Proof.Machine

variable {s t s' : State}

/-! ### The operations on states that agree -/

theorem State.SameArch.symm (h : s.SameArch t) : t.SameArch s :=
  ⟨h.h.symm, h.bitlen.symm, h.fill.symm, h.fin.symm, h.var.symm, fun a ha => (h.pending a (by rwa [h.fill])).symm⟩

theorem State.SameArch.trans {u : State} (h : s.SameArch t) (h' : t.SameArch u) : s.SameArch u :=
  ⟨h.h.trans h'.h, h.bitlen.trans h'.bitlen, h.fill.trans h'.fill, h.fin.trans h'.fin, h.var.trans h'.var,
    fun a ha => (h.pending a ha).trans (h'.pending a (by rwa [← h.fill]))⟩

theorem State.SameArch.respond (h : s.SameArch t) (st st' : Status) (d d' : RspData) :
    (s.respond st d).SameArch (t.respond st' d') :=
  (s.sameArch_respond st d).trans (h.trans (t.sameArch_respond st' d').symm)

theorem State.sameArch_initialise (s t : State) (v : Variant) : (s.initialise v).SameArch (t.initialise v) :=
  ⟨rfl, rfl, rfl, rfl, rfl, fun _ ha => absurd ha (Nat.not_lt_zero _)⟩

theorem State.SameArch.statusWord_eq (h : s.SameArch t) : s.statusWord = t.statusWord := by
  rw [State.statusWord, h.fill, h.var, h.fin, ← State.statusWord]

/-- A byte stored at FILL joins the pending bytes, on which the buffers agree. -/
theorem State.SameArch.readBuf_storeBuf_fill (h : s.SameArch t) (x : Byte) {a : Nat} (ha : a ≤ s.fill.toNat) :
    (s.storeBuf s.fill.toNat x).readBuf a = (t.storeBuf t.fill.toNat x).readBuf a := by
  rw [State.readBuf_storeBuf, State.readBuf_storeBuf, ← h.fill]
  obtain hlt | rfl := Nat.lt_or_eq_of_le ha
  · rw [if_neg hlt.ne, if_neg hlt.ne, h.pending a hlt]
  · rw [if_pos rfl, if_pos rfl]

theorem State.SameArch.absorb_of_ne (h : s.SameArch t) (x : Byte) (hne : s.fill ≠ 63) :
    (s.absorb x).SameArch (t.absorb x) := by
  have hs := s.absorb_of_ne x hne
  have ht := t.absorb_of_ne x (by rwa [← h.fill])
  refine ⟨by rw [hs, ht, h.h], by rw [absorb_bitlen, absorb_bitlen, h.bitlen], by rw [absorb_fill, absorb_fill, h.fill],
    by rw [absorb_fin, absorb_fin, h.fin], by rw [absorb_var, absorb_var, h.var], fun a ha => ?_⟩
  rw [absorb_fill, fill_succ_toNat _ hne] at ha
  calc (s.absorb x).readBuf a
      = (s.storeBuf s.fill.toNat x).readBuf a :=
      State.readBuf_congr _ _ (by rw [hs, storeBuf_buf]) (by rw [hs, storeBuf_bufEpoch]) a
    _ = (t.storeBuf t.fill.toNat x).readBuf a := h.readBuf_storeBuf_fill x (by omega)
    _ = (t.absorb x).readBuf a :=
      State.readBuf_congr _ _ (by rw [ht, storeBuf_buf]) (by rw [ht, storeBuf_bufEpoch]) a

/-- The block that the byte completes has no stale byte, so both sides compress the same block. -/
theorem State.SameArch.absorb_of_eq (h : s.SameArch t) (x : Byte) (heq : s.fill = 63) :
    (s.absorb x).SameArch (t.absorb x) := by
  have hteq : t.fill = 63 := h.fill.symm.trans heq
  have hs := s.absorb_of_eq x heq
  have ht := t.absorb_of_eq x hteq
  have hblock : (s.storeBuf 63 x).block = (t.storeBuf 63 x).block := State.block_congr _ _ fun a ha => by
    have hread := h.readBuf_storeBuf_fill x (a := a) (by rw [heq]; exact Nat.le_of_lt_succ ha)
    rwa [heq, hteq] at hread
  refine ⟨?_, by rw [absorb_bitlen, absorb_bitlen, h.bitlen], by rw [absorb_fill, absorb_fill, h.fill],
    by rw [absorb_fin, absorb_fin, h.fin], by rw [absorb_var, absorb_var, h.var], fun a ha => ?_⟩
  · rw [hs, ht]
    simp only [discardBuf_h, compressBuf_h, storeBuf_h, storeBuf_var, hblock, h.h, h.var]
  · rw [hs] at ha
    exact absurd ha (Nat.not_lt_zero a)

theorem State.SameArch.absorb (h : s.SameArch t) (x : Byte) : (s.absorb x).SameArch (t.absorb x) := by
  by_cases heq : s.fill = 63
  · exact h.absorb_of_eq x heq
  · exact h.absorb_of_ne x heq

theorem State.SameArch.absorbAll (h : s.SameArch t) (xs : List Byte) : (s.absorbAll xs).SameArch (t.absorbAll xs) := by
  induction xs generalizing s t with
  | nil => exact h
  | cons x xs ih => exact ih (h.absorb x)

/-- The padded blocks hold the pending bytes, the finalizer's own and BITLEN: no stale byte (R148). -/
theorem State.SameArch.padBlocks_eq (h : s.SameArch t) : s.padBlocks = t.padBlocks := by
  have hlt := s.fill.isLt
  obtain hle | hgt := le_or_gt s.fill.toNat 55
  · have hsingle : s.padSingle = t.padSingle := Vector.ext fun i hi => by
      rw [s.getElem_padSingle i hi, t.getElem_padSingle i hi, ← h.fill, ← h.bitlen]
      split_ifs
      · rfl
      · rfl
      · rfl
      · exact h.pending i (by omega)
    rw [s.padBlocks_of_le hle, t.padBlocks_of_le (by rwa [← h.fill]), hsingle]
  · have hspill : s.padSpill = t.padSpill := Vector.ext fun i hi => by
      rw [s.getElem_padSpill i hi, t.getElem_padSpill i hi, ← h.fill]
      split_ifs
      · rfl
      · rfl
      · exact h.pending i (by omega)
    have hlength : s.padLength = t.padLength := Vector.ext fun i hi => by
      rw [s.getElem_padLength i hi, t.getElem_padLength i hi, ← h.bitlen]
      split_ifs
      · rfl
      · rfl
      · exact absurd hi (by omega)
    rw [s.padBlocks_of_gt hgt, t.padBlocks_of_gt (by rwa [← h.fill]), hspill, hlength]

theorem State.SameArch.afterFinal (h : s.SameArch t) : s.afterFinal.SameArch t.afterFinal where
  h := by rw [afterFinal_h, afterFinal_h, h.padBlocks_eq, h.h, h.var]
  bitlen := h.bitlen
  fill := rfl
  fin := rfl
  var := h.var
  pending a ha := absurd ha (Nat.not_lt_zero a)

/-! ### The commands on states that agree -/

/-- Two states agree on the architectural state and hold the same response. -/
def State.SameReply (s t : State) : Prop := s.SameArch t ∧ s.rspStatus = t.rspStatus ∧ s.rspData = t.rspData

/-- States that agree agree again once the same response is made. -/
theorem State.SameArch.sameReply_respond (h : s.SameArch t) (st : Status) {d d' : RspData} (hd : d = d') :
    (s.respond st d).SameReply (t.respond st d') :=
  ⟨h.respond st st d d', rfl, hd⟩

theorem State.SameArch.exec (h : s.SameArch t) {i : Instr} (hx : exec i s = .next s') :
    ∃ t', Machine.exec i t = .next t' ∧ s'.SameReply t' := by
  obtain ⟨rfl, rfl⟩ | ⟨v, rfl, rfl⟩ | ⟨rfl, rfl⟩ | ⟨hf, rfl, rfl⟩ | ⟨hf, bytes, rfl, rfl⟩ | ⟨hf, rfl, rfl⟩ | ⟨hf, hi, rfl⟩ :=
    exec_cases s s' hx
  · exact ⟨_, exec_nop t, h.sameReply_respond .ok rfl⟩
  · exact ⟨_, exec_init t v, (s.sameArch_initialise t v).sameReply_respond .ok rfl⟩
  · exact ⟨_, exec_stat t, h.sameReply_respond .ok (by rw [h.statusWord_eq])⟩
  · exact ⟨_, exec_updz_active t (h.fin ▸ hf), h.sameReply_respond .ok rfl⟩
  · exact ⟨_, exec_upd_active t bytes (h.fin ▸ hf), (h.absorbAll bytes).sameReply_respond .ok rfl⟩
  · exact ⟨_, exec_final_active t (h.fin ▸ hf), h.afterFinal.sameReply_respond .ok (by rw [h.afterFinal.h])⟩
  · refine ⟨t.raise .efin, ?_, h.sameReply_respond .efin rfl⟩
    obtain rfl | rfl | ⟨bytes, rfl⟩ := hi
    · exact exec_updz_finalized t (h.fin ▸ hf)
    · exact exec_final_finalized t (h.fin ▸ hf)
    · exact exec_upd_finalized t bytes (h.fin ▸ hf)

theorem State.SameArch.command (h : s.SameArch t) {w : CmdWord} (hx : command w s = .next s') :
    ∃ t', Machine.command w t = .next t' ∧ s'.SameReply t' := by
  obtain ⟨e, hd, rfl⟩ | ⟨i, hd, hi⟩ := command_cases s s' hx
  · exact ⟨_, command_of_error t hd, h.sameReply_respond .eill rfl⟩
  · rw [command_of_ok t hd]
    exact h.exec hi

theorem State.SameArch.served (h : s.SameArch t) (w : CmdWord) : (served w s).SameReply (served w t) := by
  obtain ⟨s', hs⟩ := command_next s w
  obtain ⟨t', ht, hreply⟩ := h.command hs
  rwa [served_of_command s s' hs, served_of_command t t' ht]

/-- The responses to a word sequence depend on the architectural state alone (R112, R148). -/
theorem State.SameArch.responses_eq (h : s.SameArch t) (ws : List CmdWord) : responses ws s = responses ws t := by
  induction ws generalizing s t with
  | nil => rfl
  | cons w ws ih =>
    obtain ⟨harch, hstatus, hdata⟩ := h.served w
    rw [responses, responses, hstatus, hdata, ih harch]

/-! ### Runs of offered words -/

/-- Two steps for each offered word perform the words in order and deliver their responses. -/
theorem State.Offers.run_all {ws : List CmdWord} (h : s.Offers ws) :
    ∃ t : State, core.run (2 * ws.length) s = .next t ∧ t.Offers [] ∧ t.taken = s.taken ++ responses ws s ∧
      t.pc = s.pc + ws.length := by
  induction ws generalizing s with
  | nil => exact ⟨s, rfl, h, (List.append_nil _).symm, rfl⟩
  | cons w ws ih =>
    obtain ⟨u, hu⟩ := command_next s.nextCmd w
    obtain ⟨-, -, -, hpc, -⟩ := command_frame _ _ hu
    obtain ⟨hrun, hoffers, htaken⟩ := h.run_two hu
    obtain ⟨t, hrest, hdone, htakent, hpct⟩ := ih hoffers
    obtain ⟨harch, hstatus, hdata⟩ := s.sameArch_nextCmd.served w
    rw [served_of_command _ _ hu] at harch hstatus hdata
    refine ⟨t, ?_, hdone, ?_, ?_⟩
    · rw [List.length_cons, Nat.mul_succ, Nat.add_comm, run_add s 2 _ hrun, hrest]
    · rw [htakent, htaken, responses, hstatus, hdata, (u.sameArch_takeResponse.trans harch).responses_eq ws,
        List.append_assoc, List.singleton_append]
    · rw [hpct, State.takeResponse_pc, hpc, State.nextCmd_pc, List.length_cons, Nat.add_assoc, Nat.add_comm 1]

/-- Settles O43, by induction on the offered words: the host's lists and the free values of a taken response, in which the run differs
from the commands composed, are no part of the architectural state. -/
theorem runServesCommandsInOrder : Obligations.RunServesCommandsInOrder := by
  unfold Obligations.RunServesCommandsInOrder
  intro ws s hidle hpins hcmds
  obtain ⟨t, hrun, hdone, htaken, hpc⟩ := State.Offers.run_all ⟨hidle, hpins, hcmds⟩
  exact ⟨t, hrun, htaken, length_responses s ws, hdone.cmds, hdone.idle, hpc⟩

end Sys2Proof.Machine

/-! SUPPORT. The block buffer's canonical form, its message words and the length field (R51 to R56). -/

namespace Sys2Proof.Machine

/-! ### The canonical form -/

namespace Memory

theorem read?_cons_self (k : Nat) (c : Byte) (m : Memory) : read? ((k, c) :: m) k = some c := by
  rw [read?_cons, if_pos rfl]

/-- A canonical buffer lists nothing below its first offset. -/
theorem read?_cons_of_lt {lo k a : Nat} {c : Byte} {m : Memory} (hm : wfFrom lo ((k, c) :: m) = true) (ha : a < k) :
    read? ((k, c) :: m) a = none := by
  obtain ⟨-, hk, htail⟩ := (wfFrom_cons lo k c m).1 hm
  exact read?_of_lt _ k a ((wfFrom_cons k k c m).2 ⟨le_rfl, hk, htail⟩) ha

/-- A buffer with an entry in the 64 offsets lists something there. -/
theorem not_read?_cons_eq_none {lo k : Nat} {c : Byte} {m : Memory} (hm : wfFrom lo ((k, c) :: m) = true) :
    ¬∀ a, a < 64 → read? ((k, c) :: m) a = none := by
  obtain ⟨-, hk, -⟩ := (wfFrom_cons _ _ _ _).1 hm
  intro h
  have hread := h k hk
  rw [read?_cons_self] at hread
  cases hread

/-- Buffers that list the same bytes begin at the same offset with the same byte. -/
theorem head_eq_of_read?_eq {lo lo' k k' : Nat} {c c' : Byte} {m m' : Memory}
    (hm : wfFrom lo ((k, c) :: m) = true) (hm' : wfFrom lo' ((k', c') :: m') = true)
    (h : ∀ a, a < 64 → read? ((k, c) :: m) a = read? ((k', c') :: m') a) : k = k' ∧ c = c' := by
  obtain ⟨-, hk, -⟩ := (wfFrom_cons _ _ _ _).1 hm
  obtain ⟨-, hk', -⟩ := (wfFrom_cons _ _ _ _).1 hm'
  obtain hlt | rfl | hgt := lt_trichotomy k k'
  · have hread := h k hk
    rw [read?_cons_self, read?_cons_of_lt hm' hlt] at hread
    cases hread
  · have hread := h k hk
    rw [read?_cons_self, read?_cons_self] at hread
    exact ⟨rfl, Option.some.inj hread⟩
  · have hread := h k' hk'
    rw [read?_cons_self, read?_cons_of_lt hm hgt] at hread
    cases hread

/-- What follows a common first offset lists the same bytes too. -/
theorem tail_read?_eq {k : Nat} {c : Byte} {m m' : Memory} (hm : wfFrom (k + 1) m = true) (hm' : wfFrom (k + 1) m' = true)
    {a : Nat} (h : read? ((k, c) :: m) a = read? ((k, c) :: m') a) : read? m a = read? m' a := by
  by_cases hka : k = a
  · rw [read?_of_lt m (k + 1) a hm (by omega), read?_of_lt m' (k + 1) a hm' (by omega)]
  · rwa [read?_cons, read?_cons, if_neg hka, if_neg hka] at h

/-- A buffer in canonical form is determined by what it lists at the 64 offsets. -/
theorem eq_of_read?_eq {lo : Nat} {m m' : Memory} (hm : wfFrom lo m = true) (hm' : wfFrom lo m' = true)
    (h : ∀ a, a < 64 → read? m a = read? m' a) : m = m' := by
  induction m generalizing lo m' with
  | nil =>
    obtain _ | ⟨⟨k, c⟩, m'⟩ := m'
    · rfl
    · exact absurd (fun a ha => (h a ha).symm) (not_read?_cons_eq_none hm')
  | cons e m ih =>
    obtain ⟨k, c⟩ := e
    obtain ⟨-, -, htail⟩ := (wfFrom_cons _ _ _ _).1 hm
    obtain _ | ⟨⟨k', c'⟩, m'⟩ := m'
    · exact absurd h (not_read?_cons_eq_none hm)
    · obtain ⟨rfl, rfl⟩ := head_eq_of_read?_eq hm hm' h
      obtain ⟨-, -, htail'⟩ := (wfFrom_cons _ _ _ _).1 hm'
      rw [ih htail htail' fun a ha => tail_read?_eq htail htail' (h a ha)]

end Memory

/-- Settles O10: by induction on the list, since the offsets rise strictly. -/
theorem canonicalBuffersAreEqual : Obligations.CanonicalBuffersAreEqual := by
  unfold Obligations.CanonicalBuffersAreEqual
  exact fun m m' hm hm' h => Memory.eq_of_read?_eq hm hm' h

/-! ### Words and bytes (R53, R54) -/

/-- A byte appended to a bit string is the last base-256 digit of the number. -/
theorem toNat_append_byte {w : Nat} (x : BitVec w) (b : Byte) : (x ++ b).toNat = x.toNat * 256 + b.toNat := by
  rw [BitVec.toNat_append, ← Nat.shiftLeft_add_eq_or_of_lt b.isLt, Nat.shiftLeft_eq]

/-- Four bytes spell their big-endian word. -/
theorem ofNat_beNat_four (b0 b1 b2 b3 : Byte) : BitVec.ofNat 32 (beNat [b0, b1, b2, b3]) = beWord b0 b1 b2 b3 := by
  have hspell : beNat [b0, b1, b2, b3] = (beWord b0 b1 b2 b3).toNat := by
    simp only [beWord, toNat_append_byte, beNat, List.foldl_cons, List.foldl_nil, Nat.zero_mul, Nat.zero_add]
  rw [hspell, BitVec.ofNat_toNat, BitVec.setWidth_eq]

/-- `MemRead(addr, 4)` is the word of the four bytes from `addr` on (R52, R53). -/
theorem State.memRead_four (s : State) (addr : Nat) :
    s.memRead addr 4 = beWord (s.readBuf addr) (s.readBuf (addr + 1)) (s.readBuf (addr + 2)) (s.readBuf (addr + 3)) :=
  ofNat_beNat_four _ _ _ _

/-- Settles O11: the block's bytes are those of BUF, and four bytes spell their big-endian word. -/
theorem messageWordsAreBigEndian : Obligations.MessageWordsAreBigEndian := by
  unfold Obligations.MessageWordsAreBigEndian
  intro s i hi
  exact ⟨s.messageWord_block i hi, (s.messageWord_block i hi).trans (s.memRead_four (4 * i)).symm⟩

/-- Settles O12: a read under `MemWrite` is a byte of `v` inside its range and the old byte outside. -/
theorem lengthFieldIsBigEndian : Obligations.LengthFieldIsBigEndian := by
  unfold Obligations.LengthFieldIsBigEndian
  refine fun s v => ⟨fun k hk => ?_, fun a ha => ?_⟩
  · rw [State.readBuf_memWrite, if_pos (by omega), show 8 * (8 - 1 - (56 + k - 56)) = 56 - 8 * k by omega]
  · rw [State.readBuf_memWrite, if_neg (by omega)]

/-! ### Aligned UPD (R56) -/

/-- The four bytes of DATA, first to last, are DATA big-endian. -/
theorem beWord_dataByte (data : BitVec 32) :
    beWord (dataByte data 0) (dataByte data 1) (dataByte data 2) (dataByte data 3) = data := by
  have h1 : dataByte data 0 ++ dataByte data 1 = data.extractLsb' 16 16 :=
    BitVec.extractLsb'_append_extractLsb'_eq_extractLsb' rfl
  have h2 : data.extractLsb' 16 16 ++ dataByte data 2 = data.extractLsb' 8 24 :=
    BitVec.extractLsb'_append_extractLsb'_eq_extractLsb' rfl
  have h3 : data.extractLsb' 8 24 ++ dataByte data 3 = data.extractLsb' 0 32 :=
    BitVec.extractLsb'_append_extractLsb'_eq_extractLsb' rfl
  rw [beWord, h1, h2, h3, BitVec.extractLsb'_eq_self]

/-- Message word i is the big-endian word of the four bytes of BUF from offset 4i on (R53). -/
theorem State.messageWord_block_eq (s : State) {i : Nat} (hi : i < 16) (b : Nat → Byte)
    (h : ∀ k, k < 4 → s.readBuf (4 * i + k) = b k) : messageWord s.block i = beWord (b 0) (b 1) (b 2) (b 3) := by
  rw [s.messageWord_block i hi, ← h 0 (by omega), ← h 1 (by omega), ← h 2 (by omega), ← h 3 (by omega)]
  rfl

/-- UPD with N = 3 carries four bytes (R73). -/
theorem length_msgBytes_three (data : BitVec 32) : (msgBytes 3#2 data).length = 4 := length_msgBytes _ _

theorem getD_msgBytes_three (data : BitVec 32) {k : Nat} (hk : k < 4) : (msgBytes 3#2 data).getD k 0 = dataByte data k := by
  simp [msgBytes, hk]

/-- DATA stored at the offset of message word i is message word i. -/
theorem State.messageWord_storeBytes_same (s : State) (data : BitVec 32) {i : Nat} (hi : i < 16) :
    messageWord (s.storeBytes (4 * i) (msgBytes 3#2 data)).block i = data := by
  rw [State.messageWord_block_eq _ hi (dataByte data), beWord_dataByte]
  intro k hk
  rw [State.readBuf_storeBytes, length_msgBytes_three, if_pos (by omega), Nat.add_sub_cancel_left,
    getD_msgBytes_three data hk]

/-- DATA stored at the offset of message word i leaves the other message words alone. -/
theorem State.messageWord_storeBytes_other (s : State) (data : BitVec 32) {i j : Nat} (hj : j < 16) (hij : j ≠ i) :
    messageWord (s.storeBytes (4 * i) (msgBytes 3#2 data)).block j = messageWord s.block j := by
  rw [State.messageWord_block_eq _ hj fun k => s.readBuf (4 * j + k), s.messageWord_block_eq hj _ fun _ _ => rfl]
  intro k hk
  rw [State.readBuf_storeBytes, length_msgBytes_three, if_neg (by omega)]

/-- Absorbed bytes that do not complete the block leave the block that storing them at FILL gives. -/
theorem State.block_absorbAll_of_lt (s : State) (xs : List Byte) (h : s.fill.toNat + xs.length < 64) :
    (s.absorbAll xs).block = (s.storeBytes s.fill.toNat xs).block :=
  State.block_congr _ _ fun a _ => by rw [s.readBuf_absorbAll_of_lt xs a h, State.readBuf_storeBytes]

/-- Absorbed bytes that complete the block compress the block that storing them at FILL gives. -/
theorem State.absorbAll_h_of_eq (s : State) (xs : List Byte) (h : s.fill.toNat + xs.length = 64) :
    (s.absorbAll xs).h = compress s.h (s.storeBytes s.fill.toNat xs).block s.var := by
  rw [s.absorbAll_of_eq xs h]
  simp only [discardBuf_h, compressBuf_h, storeBytes_h, storeBytes_var]

/-- Settles O13: FILL is the offset of a message word, and the four bytes stored there are the bytes of DATA. -/
theorem alignedUpdPlacesDataUnchanged : Obligations.AlignedUpdPlacesDataUnchanged := by
  unfold Obligations.AlignedUpdPlacesDataUnchanged
  intro s data hactive haligned
  have hfill : s.fill.toNat = 4 * (s.fill.toNat / 4) := by omega
  have hlen := length_msgBytes_three data
  refine ⟨.upd (msgBytes 3#2 data), _, decode_word 0x2#4 0#2 3#2 data, exec_upd_active s _ hactive,
    fun hlt => ?_, fun heq => ?_⟩
  · rw [State.block_respond, s.block_absorbAll_of_lt _ (by omega)]
    nth_rw 1 [hfill]
    exact s.messageWord_storeBytes_same data (by omega)
  · refine ⟨(s.storeBytes (4 * 15) (msgBytes 3#2 data)).block, ?_, s.messageWord_storeBytes_same data (by omega),
      fun j hj => s.messageWord_storeBytes_other data (by omega) (by omega)⟩
    rw [State.respond_h, s.absorbAll_h_of_eq _ (by omega), heq]

end Sys2Proof.Machine

/-! SUPPORT. What the decoder reads of a command word: the header OP, Z, N decides legality, and only the operands read DATA
(R72 to R81). -/

namespace Sys2Proof

open Sys2Proof.Machine Sys2Proof.Laws.EncodedFields

/-! ### The encodings (R83) -/

/-- Settles O37: the fields the encoder writes are the fields the decoder reads. -/
theorem decodeInvertsEncode : Obligations.DecodeInvertsEncode := by
  unfold Obligations.DecodeInvertsEncode
  exact fun _ hw => decode_encode hw

/-- Settles O34: each word written out is the encoding of its command (R83). -/
theorem writtenOutWordsDecode : Obligations.WrittenOutWordsDecode := by
  unfold Obligations.WrittenOutWordsDecode
  exact ⟨decode_encode (i := .nop) rfl, decode_encode (i := .init .sha0) rfl,
    decode_encode (i := .upd [0x61, 0x62, 0x63]) rfl, decode_encode (i := .updz) rfl, decode_encode (i := .final) rfl,
    decode_encode (i := .stat) rfl⟩

/-! ### The operands (R73 to R76) -/

/-- UPD takes the first N + 1 of the four bytes of DATA, most significant first (R73, R74). -/
theorem msgBytes_bytes (n : BitVec 2) (b0 b1 b2 b3 : Byte) :
    msgBytes n (b0 ++ b1 ++ b2 ++ b3) = [b0, b1, b2, b3].take (n.toNat + 1) := by
  have hpack : b0 ++ b1 ++ b2 ++ b3 = packBytes [b0, b1, b2, b3] := rfl
  rw [hpack]
  apply List.ext_getElem
  · rw [length_msgBytes, List.length_take]
    exact (Nat.min_eq_left n.isLt).symm
  · intro k hk _
    rw [length_msgBytes] at hk
    have hk4 : k < 4 := by omega
    rw [List.getElem_take]
    simp [msgBytes, dataByte_packBytes _ k hk4, hk4]

/-- INIT takes its variant from DATA[0] (R75). -/
theorem variantOperand_append (data : BitVec 31) (b : BitVec 1) :
    variantOperand (data ++ b) = if b = 0#1 then .sha1 else .sha0 := by
  have hbit : (data ++ b).extractLsb' 0 1 = b := BitVec.extractLsb'_append_eq_right
  rw [variantOperand, hbit]

/-- INIT's variant depends on DATA[0] alone (R76). -/
theorem variantOperand_congr {data data' : BitVec 32} (h : data.getLsbD 0 = data'.getLsbD 0) :
    variantOperand data = variantOperand data' := by
  have hbit : data.extractLsb' 0 1 = data'.extractLsb' 0 1 := by
    ext i hi
    obtain rfl : i = 0 := by omega
    simpa using h
  rw [variantOperand, variantOperand, hbit]

/-- Bit j of message byte k, counted from the most significant, is bit 8k + j of DATA. -/
theorem getMsbD_dataByte (data : BitVec 32) {k j : Nat} (hk : k < 4) (hj : j < 8) :
    (dataByte data k).getMsbD j = data.getMsbD (8 * k + j) := by
  rw [dataByte, BitVec.getMsbD_eq_getLsbD, BitVec.getMsbD_eq_getLsbD, BitVec.getLsbD_extractLsb',
    show 24 - 8 * k + (8 - 1 - j) = 32 - 1 - (8 * k + j) by omega]
  simp [hj, show 8 * k + j < 32 by omega, show 8 - 1 - j < 8 by omega]

/-- The bytes of UPD depend on the first N + 1 bytes of DATA alone (R76). -/
theorem msgBytes_congr {n : BitVec 2} {data data' : BitVec 32}
    (h : ∀ j, j < 8 * (n.toNat + 1) → data.getMsbD j = data'.getMsbD j) : msgBytes n data = msgBytes n data' := by
  unfold msgBytes
  refine List.map_congr_left fun k hk => BitVec.eq_of_getMsbD_eq fun j hj => ?_
  have hkn : k < n.toNat + 1 := List.mem_range.1 hk
  have hk4 : k < 4 := by omega
  rw [getMsbD_dataByte data hk4 hj, getMsbD_dataByte data' hk4 hj]
  exact h _ (by omega)

/-- Settles O36: DATA enters the decoder through the bytes of UPD and the variant of INIT only. -/
theorem ignoredDataBitsDoNotMatter : Obligations.IgnoredDataBitsDoNotMatter := by
  unfold Obligations.IgnoredDataBitsDoNotMatter
  intro op z n data data' hinit hupd
  refine (decode_word op z n data).trans (Eq.trans ?_ (decode_word op z n data').symm)
  by_cases h2 : op = 2#4
  · rw [msgBytes_congr (hupd h2)]
    simp only [if_pos h2]
  · by_cases h1 : op = 1#4
    · rw [variantOperand_congr (hinit h1)]
      simp only [if_neg h2]
    · simp only [if_neg h2, if_neg h1]

/-- Settles O33: the header selects the command and the operand lemmas read DATA. -/
theorem opcodeMapDecodesEachCommand : Obligations.OpcodeMapDecodesEachCommand := by
  unfold Obligations.OpcodeMapDecodesEachCommand
  intro b0 b1 b2 b3 data
  have hinit (b : BitVec 1) :
      decode (0x1#4 ++ 0#2 ++ 0#2 ++ (data ++ b)) = .ok (.init (if b = 0#1 then .sha1 else .sha0)) := by
    rw [← variantOperand_append data b]
    exact decode_word 0x1#4 0#2 0#2 _
  have hupd (n : BitVec 2) :
      decode (0x2#4 ++ 0#2 ++ n ++ (b0 ++ b1 ++ b2 ++ b3)) = .ok (.upd ([b0, b1, b2, b3].take (n.toNat + 1))) := by
    rw [← msgBytes_bytes n b0 b1 b2 b3]
    exact decode_word 0x2#4 0#2 n _
  exact ⟨decode_word 0x0#4 0#2 0#2 _, hinit 0#1, hinit 1#1, hupd 0#2, hupd 1#2, hupd 2#2, hupd 3#2,
    decode_word 0x3#4 0#2 0#2 _, decode_word 0x4#4 0#2 0#2 _, decode_word 0x5#4 0#2 0#2 _⟩

/-! ### The header OP, Z, N (R70) -/

/-- The upper byte of a command word is its OP, Z and N (R70). -/
theorem header_eq_fields (w : CmdWord) : w.extractLsb' 32 8 = cmdOp w ++ cmdZ w ++ cmdN w := by
  have hoz : cmdOp w ++ cmdZ w = w.extractLsb' 34 6 := BitVec.extractLsb'_append_extractLsb'_eq_extractLsb' rfl
  have hozn : w.extractLsb' 34 6 ++ cmdN w = w.extractLsb' 32 8 := BitVec.extractLsb'_append_extractLsb'_eq_extractLsb' rfl
  rw [hoz, hozn]

/-- The per-instruction family `EncodedFields`, for every instruction at once. -/
theorem encodedFields (i : Instr) : Statement i := by
  cases i with
  | nop => exact nop
  | init v => exact init v
  | upd bytes => exact upd bytes
  | updz => exact updz
  | final => exact final
  | stat => exact stat

/-- An opcode of the table that is none of the first five is STAT's (R72). -/
theorem eq_stat_opcode (op : BitVec 4) (h6 : ¬ 0x6#4 ≤ op) (h2 : op ≠ 0x2#4) (h0 : op ≠ 0x0#4) (h1 : op ≠ 0x1#4)
    (h3 : op ≠ 0x3#4) (h4 : op ≠ 0x4#4) : op = 0x5#4 := by
  bv_omega

/-- The decoded bytes of UPD are 1 to 4 (R73). -/
theorem wellFormed_upd_msgBytes (n : BitVec 2) (data : BitVec 32) : (Instr.upd (msgBytes n data)).wellFormed = true := by
  have hn := n.isLt
  rw [Instr.wellFormed, length_msgBytes, Bool.and_eq_true, decide_eq_true_eq, decide_eq_true_eq]
  omega

/-- N is the number of UPD's bytes less one (R73). -/
theorem count_upd_msgBytes (n : BitVec 2) (data : BitVec 32) : count (.upd (msgBytes n data)) = n := by
  rw [count, length_msgBytes, Nat.add_sub_cancel, BitVec.ofNat_toNat, BitVec.setWidth_eq]

/-- What the decoder accepts is well formed, and the word has its opcode in OP, 0 in Z and its count in N (R72, R81). -/
theorem fields_of_decode_ok {w : CmdWord} {i : Instr} (h : decode w = .ok i) :
    i.wellFormed = true ∧ cmdOp w = opcode i ∧ cmdZ w = 0#2 ∧ cmdN w = count i := by
  unfold decode at h
  split_ifs at h with hz h2 h6 hn h0 h1 h3 h4 <;> cases h
  · exact ⟨wellFormed_upd_msgBytes _ _, h2, not_not.1 hz, (count_upd_msgBytes _ _).symm⟩
  · exact ⟨rfl, h0, not_not.1 hz, not_not.1 hn⟩
  · exact ⟨rfl, h1, not_not.1 hz, not_not.1 hn⟩
  · exact ⟨rfl, h3, not_not.1 hz, not_not.1 hn⟩
  · exact ⟨rfl, h4, not_not.1 hz, not_not.1 hn⟩
  · exact ⟨rfl, eq_stat_opcode _ h6 h2 h0 h1 h3 h4, not_not.1 hz, not_not.1 hn⟩

/-- Settles O38: the decoded instruction is well formed, and its encoding has the word's fields. -/
theorem decodedInstructionIsWellFormed : Obligations.DecodedInstructionIsWellFormed := by
  unfold Obligations.DecodedInstructionIsWellFormed
  intro w i h
  obtain ⟨hwf, hop, hz, hn⟩ := fields_of_decode_ok h
  obtain ⟨hop', hz', hn'⟩ := encodedFields i
  refine ⟨hwf, decode_encode hwf, ?_⟩
  rw [header_eq_fields, header_eq_fields, hop, hz, hn, hop', hz', hn']

/-! ### Counting the legal words (R81) -/

/-- DATA has no say in whether a word is legal (R77 to R79). -/
theorem isOk_decode_word_congr (op : BitVec 4) (z n : BitVec 2) (data data' : BitVec 32) :
    (decode (op ++ z ++ n ++ data)).isOk = (decode (op ++ z ++ n ++ data')).isOk := by
  rw [decode_word op z n data, decode_word op z n data']
  split_ifs <;> rfl

/-- Whether a word is legal is decided by its upper byte. -/
theorem isOk_decode_header (w : CmdWord) : (decode w).isOk = (decode (w.extractLsb' 32 8 ++ 0#32)).isOk := by
  rw [header_eq_fields, ← isOk_decode_word_congr _ _ _ (cmdData w), ← word_eq_fields]

/-- Nine of the 256 upper bytes are legal: four of UPD and one of each other command. -/
theorem count_legal_headers : Nat.count (fun q => (decode (BitVec.ofNat 8 q ++ 0#32)).isOk = true) 256 = 9 := by
  decide +kernel

theorem extractLsb'_ofNat_header (n : Nat) : (BitVec.ofNat 40 n).extractLsb' 32 8 = BitVec.ofNat 8 (n / 2 ^ 32) := by
  apply BitVec.eq_of_toNat_eq
  simp only [BitVec.extractLsb'_toNat, BitVec.toNat_ofNat, Nat.shiftRight_eq_div_pow]
  omega

/-- A property of the quotient by `b` holds of `b` numbers for each quotient it holds of. -/
theorem count_div (p : Nat → Prop) [DecidablePred p] (a b : Nat) (hb : 0 < b) :
    Nat.count (fun n => p (n / b)) (a * b) = Nat.count p a * b := by
  induction a with
  | zero => simp
  | succ a ih =>
    have hblock : Nat.count (fun k => p ((a * b + k) / b)) b = if p a then b else 0 := by
      have hquot (k : Nat) (hk : k < b) : (a * b + k) / b = a := by
        rw [Nat.mul_comm, Nat.mul_add_div hb, Nat.div_eq_of_lt hk, Nat.add_zero]
      split_ifs with hp
      · exact Nat.count_iff_forall.2 fun k hk => by rwa [hquot k hk]
      · exact Nat.count_iff_forall_not.2 fun k hk => by rwa [hquot k hk]
    rw [Nat.succ_mul, Nat.count_add, ih, hblock, Nat.count_succ]
    split_ifs <;> ring

/-- Settles O35: each of the nine legal upper bytes heads 2^32 words. -/
theorem legalWordsAreCounted : Obligations.LegalWordsAreCounted := by
  unfold Obligations.LegalWordsAreCounted
  have hcount := count_div (fun q => (decode (BitVec.ofNat 8 q ++ 0#32)).isOk = true) 256 (2 ^ 32) (by norm_num)
  rw [count_legal_headers, Nat.count_eq_card_filter_range, show 256 * 2 ^ 32 = 2 ^ 40 by norm_num] at hcount
  have hheader (n : Nat) :
      (decode (BitVec.ofNat 40 n)).isOk = (decode (BitVec.ofNat 8 (n / 2 ^ 32) ++ 0#32)).isOk := by
    rw [isOk_decode_header, extractLsb'_ofNat_header]
  simpa only [hheader] using hcount

end Sys2Proof

/-! SUPPORT. The expansion of UPDATE, piece by piece, and its commands on a Finalized engine (R84, R201). -/

namespace Sys2Proof.Machine

/-- A sequence that is its own only piece has 1 to 4 bytes. -/
theorem length_of_pieces_eq_singleton {short : List Byte} (h : pieces short = [short]) :
    1 ≤ short.length ∧ short.length ≤ 4 :=
  length_of_mem_pieces short short (by rw [h]; exact List.mem_singleton_self short)

/-- A sequence of m bytes is cut into ceil(m / 4) pieces (R84). -/
theorem length_pieces (msg : List Byte) : (pieces msg).length = (msg.length + 3) / 4 := by
  induction msg using pieces.induct with
  | case1 a b c d rest ih =>
    rw [pieces, List.length_cons, ih]
    simp only [List.length_cons]
    omega
  | case2 => rfl
  | case3 short hlong hnil =>
    have hone := pieces.eq_3 short hlong hnil
    have hshort := length_of_pieces_eq_singleton hone
    rw [hone, List.length_singleton]
    omega

/-- Piece k holds the bytes 4k to 4k + 3, as far as there are any (R84). -/
theorem getElem?_pieces (msg : List Byte) (k : Nat) (hk : k < (msg.length + 3) / 4) :
    (pieces msg)[k]? = some ((msg.drop (4 * k)).take 4) := by
  induction msg using pieces.induct generalizing k with
  | case1 a b c d rest ih =>
    cases k with
    | zero => rfl
    | succ k =>
      simp only [List.length_cons] at hk
      rw [pieces, List.getElem?_cons_succ, ih k (by omega)]
      rfl
  | case2 => simp at hk
  | case3 short hlong hnil =>
    have hone := pieces.eq_3 short hlong hnil
    obtain ⟨-, hshort⟩ := length_of_pieces_eq_singleton hone
    obtain rfl : k = 0 := by omega
    rw [hone, Nat.mul_zero, List.drop_zero, List.take_of_length_le hshort, List.getElem?_cons_zero]

theorem updateProgram_nil : updateProgram [] = [.updz] := rfl

theorem updateProgram_of_ne_nil {msg : List Byte} (h : msg ≠ []) : updateProgram msg = (pieces msg).map .upd := if_neg h

theorem updateProgram_ne_nil (msg : List Byte) : updateProgram msg ≠ [] := by
  intro h
  have hmsg := flatMap_messageOf_updateProgram msg
  rw [h] at hmsg
  subst hmsg
  cases h

/-- An update command fails with EFIN on a Finalized engine (R201). -/
theorem exec_update_finalized {s : State} (hf : s.fin = .finalized) {i : Instr} (hi : IsUpdate i) :
    exec i s = .next (s.raise .efin) := by
  obtain rfl | ⟨bytes, rfl, -⟩ := hi
  · exact exec_updz_finalized s hf
  · exact exec_upd_finalized s bytes hf

/-- Update commands on a Finalized engine change the response and `pc` only (R201, R206). -/
theorem execAll_updates_finalized {s : State} (hf : s.fin = .finalized) {is : List Instr} (hne : is ≠ [])
    (his : ∀ i ∈ is, IsUpdate i) :
    execAll is s =
      .next { s with rspPending := true, rspStatus := 1, rspData := 0, pc := s.pc + is.length } := by
  induction is generalizing s with
  | nil => exact (hne rfl).elim
  | cons i is ih =>
    rw [execAll_cons s is (exec_update_finalized hf (his i List.mem_cons_self))]
    cases is with
    | nil => rfl
    | cons j js =>
      rw [ih (s := s.raise .efin) hf (List.cons_ne_nil j js) fun i' hi' => his i' (List.mem_cons_of_mem i hi'),
        List.length_cons (a := i), Nat.add_comm _ 1, ← Nat.add_assoc]
      rfl

/-- Settles O50: UPDATE expands into its pieces, and each of its commands fails alike on a Finalized engine. -/
theorem updateProgramDeliversTheBytes : Obligations.UpdateProgramDeliversTheBytes := by
  unfold Obligations.UpdateProgramDeliversTheBytes
  intro msg
  refine ⟨flatMap_messageOf_updateProgram msg, fun i hi => (isUpdate_of_mem_updateProgram hi).wellFormed, ?_, ?_, ?_⟩
  · rintro rfl
    exact updateProgram_nil
  · intro hmsg
    rw [updateProgram_of_ne_nil hmsg]
    refine ⟨by rw [List.length_map, length_pieces], fun k hk => ?_⟩
    rw [List.getElem?_map, getElem?_pieces msg k hk]
    rfl
  · exact fun s hf => execAll_updates_finalized hf (updateProgram_ne_nil msg) fun i hi => isUpdate_of_mem_updateProgram hi

end Sys2Proof.Machine

/-! SUPPORT. The commands that only answer, the illegal forms of their words, and the step that performs a word. -/

namespace Sys2Proof

open Sys2Proof.Machine Sys2Proof.Laws.EncodedFields

/-- A word of a command other than UPD with Z or N not zero is illegal (R78, R79). -/
theorem decode_word_error {op : BitVec 4} {z n : BitVec 2} (data : BitVec 32) (hop : op ≠ 0x2#4) (h : z ≠ 0 ∨ n ≠ 0) :
    ∃ e, decode (op ++ z ++ n ++ data) = .error e := by
  cases hd : decode (op ++ z ++ n ++ data) with
  | error e => exact ⟨e, rfl⟩
  | ok i =>
    obtain ⟨-, hopcode, hz, hcount⟩ := fields_of_decode_ok hd
    rw [cmdOp_word] at hopcode
    rw [cmdZ_word] at hz
    rw [cmdN_word] at hcount
    have hn : n = 0 := by
      cases i with
      | upd bytes => exact absurd hopcode hop
      | nop | init | updz | final | stat => exact hcount
    exact absurd hn (h.resolve_left (not_not.2 hz))

/-- A word of a command other than UPD with Z or N not zero is answered with EILL (R202). -/
theorem command_word_illegal {op : BitVec 4} {z n : BitVec 2} (data : BitVec 32) (s : State) (hop : op ≠ 0x2#4)
    (h : z ≠ 0 ∨ n ≠ 0) : command (op ++ z ++ n ++ data) s = .next (s.raise .eill) := by
  obtain ⟨e, he⟩ := decode_word_error data hop h
  exact command_of_error s he

end Sys2Proof

namespace Sys2Proof.Machine

/-- Settles O4: the fields INIT sets and those it leaves, BUF and the epoch of its stale bytes among them. -/
theorem initResetsEngineAndSelectsVariant : Obligations.InitResetsEngineAndSelectsVariant := by
  unfold Obligations.InitResetsEngineAndSelectsVariant
  exact fun v s => ⟨_, exec_init s v, rfl, rfl, rfl, rfl, rfl, rfl, rfl, rfl, rfl,
    State.readBuf_congr _ s rfl rfl, rfl, rfl, rfl⟩

/-- Settles O14: NOP is a bare response, and its word with Z or N not zero is illegal. -/
theorem nopAnswersAndChangesNothing : Obligations.NopAnswersAndChangesNothing := by
  unfold Obligations.NopAnswersAndChangesNothing
  exact ⟨exec_nop, decode_word 0x0#4 0#2 0#2, fun z n data s => command_word_illegal data s (by decide)⟩

theorem variantBit_eq (v : Variant) : variantBit v = if v = .sha0 then 1#1 else 0#1 := by cases v <;> rfl

theorem finBit_eq (f : Lifecycle) : finBit f = if f = .finalized then 1#1 else 0#1 := by cases f <;> rfl

/-- The status word is FILL ++ VAR ++ FIN with zeros above (R29). -/
theorem State.setWidth_statusWord (s : State) :
    s.statusWord.setWidth 160 = (s.fill ++ variantBit s.var ++ finBit s.fin).setWidth 160 := by
  have htoNat : s.statusWord.toNat = (s.fill ++ variantBit s.var ++ finBit s.fin).toNat := by
    change (0#24 ++ s.fill ++ variantBit s.var ++ finBit s.fin).toNat = _
    simp only [BitVec.toNat_append, BitVec.toNat_ofNat, Nat.zero_mod, Nat.zero_shiftLeft, Nat.zero_or]
  apply BitVec.eq_of_toNat_eq
  rw [BitVec.toNat_setWidth, BitVec.toNat_setWidth, htoNat]

/-- Settles O15: STAT is a bare response with the status word, and its word with Z or N not zero is illegal. -/
theorem statAnswersStatusWord : Obligations.StatAnswersStatusWord := by
  unfold Obligations.StatAnswersStatusWord
  refine ⟨fun s => ?_, decode_word 0x5#4 0#2 0#2, fun z n data s => command_word_illegal data s (by decide)⟩
  rw [exec_stat, s.setWidth_statusWord, variantBit_eq, finBit_eq]
  rfl

/-- Settles O17: while Active UPDZ is a bare response, while Finalized it raises EFIN, and its word with Z or N not zero is illegal. -/
theorem updzChecksLifecycleOnly : Obligations.UpdzChecksLifecycleOnly := by
  unfold Obligations.UpdzChecksLifecycleOnly
  exact ⟨exec_updz_active, exec_updz_finalized, decode_word 0x3#4 0#2 0#2,
    fun z n data s => command_word_illegal data s (by decide)⟩

/-- Settles O39: the idle port accepts the offered word, which is then decoded and performed. -/
theorem stepPerformsOfferedCommand : Obligations.StepPerformsOfferedCommand := by
  unfold Obligations.StepPerformsOfferedCommand
  intro s w hrst hidle hoffered
  rw [step_of_offered s hrst hidle hoffered]
  exact ⟨fun i hd => command_of_ok s.nextPins.nextCmd hd, fun e hd => command_of_error s.nextPins.nextCmd hd⟩

end Sys2Proof.Machine

/-! SUPPORT. What UPD makes of the block buffer and the chaining state, within a block and across its boundary (R102, R105). -/

namespace Sys2Proof.Machine

/-! ### Bytes that reach past the block boundary -/

section Across

variable (s : State) (xs : List Byte)

/-- Absorbing bytes is absorbing the first `n` of them and then the rest. -/
theorem State.absorbAll_take_drop (n : Nat) : s.absorbAll xs = (s.absorbAll (xs.take n)).absorbAll (xs.drop n) := by
  rw [← absorbAll_append, List.take_append_drop]

/-- Bytes that complete the block leave nothing pending (R102). -/
theorem State.absorbAll_fill_of_eq (h : s.fill.toNat + xs.length = 64) : (s.absorbAll xs).fill.toNat = 0 := by
  rw [s.absorbAll_of_eq xs h]
  rfl

/-- Bytes stored past offset 63 are no part of the block. -/
theorem State.block_storeBytes_append (a : Nat) (ys zs : List Byte) (h : 64 ≤ a + ys.length) :
    (s.storeBytes a (ys ++ zs)).block = (s.storeBytes a ys).block :=
  State.block_congr _ _ fun k hk => by rw [storeBytes_append, State.readBuf_storeBytes, if_neg (by omega)]

variable {s xs} (hge : 64 ≤ s.fill.toNat + xs.length) (hlt : s.fill.toNat + xs.length < 128)

include hge

theorem State.fill_add_length_take : s.fill.toNat + (xs.take (64 - s.fill.toNat)).length = 64 := by
  have := s.fill.isLt
  rw [List.length_take]
  omega

include hlt

/-- Once the block is complete, the bytes left over do not complete another. -/
theorem State.fill_add_length_drop :
    (s.absorbAll (xs.take (64 - s.fill.toNat))).fill.toNat + (xs.drop (64 - s.fill.toNat)).length < 64 := by
  have := s.fill.isLt
  rw [s.absorbAll_fill_of_eq _ (State.fill_add_length_take hge), List.length_drop]
  omega

/-- H0..H4 after bytes that reach past the boundary: one compression, of the block they complete. -/
theorem State.absorbAll_h_across : (s.absorbAll xs).h = compress s.h (s.storeBytes s.fill.toNat xs).block s.var := by
  have htake := State.fill_add_length_take hge
  have hblock := s.block_storeBytes_append s.fill.toNat _ (xs.drop (64 - s.fill.toNat)) htake.ge
  rw [List.take_append_drop] at hblock
  rw [s.absorbAll_take_drop xs (64 - s.fill.toNat), State.absorbAll_h_of_lt _ (State.fill_add_length_drop hge hlt),
    s.absorbAll_h_of_eq _ htake, hblock]

theorem State.absorbAll_fill_across : (s.absorbAll xs).fill.toNat = s.fill.toNat + xs.length - 64 := by
  rw [absorbAll_fill, BitVec.toNat_add, BitVec.toNat_ofNat]
  omega

/-- The bytes past the boundary are the next block's pending bytes, from offset 0 on. -/
theorem State.readBuf_absorbAll_across {a : Nat} (ha : a < s.fill.toNat + xs.length - 64) :
    (s.absorbAll xs).readBuf a = xs.getD (64 - s.fill.toNat + a) 0 := by
  have hdrop := State.fill_add_length_drop hge hlt
  have hzero := s.absorbAll_fill_of_eq _ (State.fill_add_length_take hge)
  rw [s.absorbAll_take_drop xs (64 - s.fill.toNat), State.readBuf_absorbAll_of_lt _ _ _ hdrop, hzero, List.length_drop,
    if_pos (by omega), Nat.sub_zero, List.getD_eq_getElem?_getD, List.getElem?_drop, ← List.getD_eq_getElem?_getD]

end Across

/-! ### UPD -/

/-- UPD carries at most four bytes (R73). -/
theorem length_le_four_of_wellFormed {bytes : List Byte} (h : (Instr.upd bytes).wellFormed = true) : bytes.length ≤ 4 := by
  rw [Instr.wellFormed, Bool.and_eq_true, decide_eq_true_eq, decide_eq_true_eq] at h
  exact h.2

/-- Settles O19: the bytes are stored from FILL on, and BUF, BITLEN and FILL are all that absorbing them changes. -/
theorem updWithinBlockStoresItsBytes : Obligations.UpdWithinBlockStoresItsBytes := by
  unfold Obligations.UpdWithinBlockStoresItsBytes
  intro s bytes hactive _ hlt
  refine ⟨_, exec_upd_active s bytes hactive, fun k hk => ?_, fun a ha => ?_, s.absorbAll_bitlen bytes, ?_, ?_⟩
  · rw [State.readBuf_respond, s.readBuf_absorbAll_of_lt bytes _ hlt, if_pos (by omega), Nat.add_sub_cancel_left]
  · rw [State.readBuf_respond, s.readBuf_absorbAll_of_lt bytes _ hlt, if_neg (by omega)]
  · rw [State.respond_fill, s.absorbAll_fill, BitVec.toNat_add, BitVec.toNat_ofNat]
    omega
  · rw [s.absorbAll_of_lt bytes hlt]
    rfl

/-- Settles O20: the first bytes complete the block, which is compressed, and the rest do not reach another boundary. -/
theorem updAcrossBoundaryCompressesOnce : Obligations.UpdAcrossBoundaryCompressesOnce := by
  unfold Obligations.UpdAcrossBoundaryCompressesOnce
  intro s bytes hactive hwf hge
  have hlt : s.fill.toNat + bytes.length < 128 := by
    have := s.fill.isLt
    have := length_le_four_of_wellFormed hwf
    omega
  have hfill := State.absorbAll_fill_across hge hlt
  refine ⟨_, exec_upd_active s bytes hactive, ?_, hfill, fun a ha => ?_, s.absorbAll_bitlen bytes, s.absorbAll_fin bytes,
    s.absorbAll_var bytes, rfl, rfl, rfl, ?_, s.absorbAll_cmds bytes, s.absorbAll_pins bytes, s.absorbAll_taken bytes⟩
  · rw [State.respond_h, State.absorbAll_h_across hge hlt, s.block_storeBytes bytes hge]
  · rw [State.respond_fill, hfill] at ha
    exact State.readBuf_absorbAll_across hge hlt ha
  · rw [State.respond_pc, s.absorbAll_pc]

/-- The block that one byte at offset 63 completes. -/
theorem State.block_storeBuf_last (s : State) (x : Byte) :
    (s.storeBuf 63 x).block = Vector.ofFn fun i : Fin 64 => if i.val = 63 then x else s.readBuf i := by
  ext i hi
  rw [State.getElem_block _ _ hi, State.readBuf_storeBuf, Vector.getElem_ofFn]

/-- Settles O18: a UPD of one byte is one absorption, whose two cases are FILL below 63 and the completed block. -/
theorem oneByteUpdAbsorbsTheByte : Obligations.OneByteUpdAbsorbsTheByte := by
  unfold Obligations.OneByteUpdAbsorbsTheByte
  intro s x hactive
  have hexec := exec_upd_active s [x] hactive
  refine ⟨fun hne => ?_, fun heq => ?_⟩
  · have hread (a : Nat) : (s.absorb x).readBuf a = if a = s.fill.toNat then x else s.readBuf a := by
      rw [← State.readBuf_storeBuf, s.absorb_of_ne x hne]
      rfl
    refine ⟨_, hexec, (hread _).trans (if_pos rfl), fun a ha => (hread a).trans (if_neg ha), s.absorb_bitlen x, ?_, ?_,
      s.absorb_var x⟩
    · rw [State.respond_fill, State.absorbAll_cons, State.absorbAll_nil, s.absorb_fill x, fill_succ_toNat _ hne]
    · rw [State.respond_h, State.absorbAll_cons, State.absorbAll_nil, s.absorb_of_ne x hne]
  · refine ⟨_, hexec, ?_, s.absorb_bitlen x, ?_, s.absorb_var x⟩
    · rw [State.respond_h, State.absorbAll_cons, State.absorbAll_nil, s.absorb_of_eq x heq, ← s.block_storeBuf_last x]
      simp only [State.discardBuf_h, State.compressBuf_h, State.storeBuf_h, State.storeBuf_var]
    · rw [State.respond_fill, State.absorbAll_cons, State.absorbAll_nil, s.absorb_of_eq x heq]

/-! ### FINAL's response -/

/-- A byte of the last word of a concatenation. -/
theorem extractLsb'_append_word_within {v : Nat} (x : BitVec v) (w : Word) (k : Nat) :
    (x ++ w).extractLsb' (24 - 8 * k) 8 = w.extractLsb' (24 - 8 * k) 8 :=
  BitVec.extractLsb'_append_eq_of_add_le (by omega)

/-- A byte of what stands above the last word of a concatenation. -/
theorem extractLsb'_append_word_above {v : Nat} (x : BitVec v) (w : Word) (n : Nat) :
    (x ++ w).extractLsb' (n + 32) 8 = x.extractLsb' n 8 := by
  rw [BitVec.extractLsb'_append_eq_of_le (Nat.le_add_left 32 n), Nat.add_sub_cancel]

/-- Byte 4i + k of the digest is byte k of Hi, the most significant first (R55): 4 - i words stand below it. -/
theorem extractLsb'_digest (h : Chain) {i k : Nat} (hi : i < 5) (hk : k < 4) :
    (digest h).extractLsb' (152 - 8 * (4 * i + k)) 8 =
      ([h.h0, h.h1, h.h2, h.h3, h.h4].getD i 0).extractLsb' (24 - 8 * k) 8 := by
  change BitVec.extractLsb' _ 8 (h.h0 ++ h.h1 ++ h.h2 ++ h.h3 ++ h.h4) = _
  match i, hi with
  | 0, _ =>
    rw [show 152 - 8 * (4 * 0 + k) = 24 - 8 * k + 32 + 32 + 32 + 32 by omega]
    simp only [extractLsb'_append_word_above]
    rfl
  | 1, _ =>
    rw [show 152 - 8 * (4 * 1 + k) = 24 - 8 * k + 32 + 32 + 32 by omega]
    simp only [extractLsb'_append_word_above, extractLsb'_append_word_within]
    rfl
  | 2, _ =>
    rw [show 152 - 8 * (4 * 2 + k) = 24 - 8 * k + 32 + 32 by omega]
    simp only [extractLsb'_append_word_above, extractLsb'_append_word_within]
    rfl
  | 3, _ =>
    rw [show 152 - 8 * (4 * 3 + k) = 24 - 8 * k + 32 by omega]
    simp only [extractLsb'_append_word_above, extractLsb'_append_word_within]
    rfl
  | 4, _ =>
    rw [show 152 - 8 * (4 * 4 + k) = 24 - 8 * k by omega]
    simp only [extractLsb'_append_word_within]
    rfl

/-- Settles O23: the fields FINAL sets and those it leaves, and the digest byte by byte. -/
theorem finalReturnsDigestAndFinalizes : Obligations.FinalReturnsDigestAndFinalizes := by
  unfold Obligations.FinalReturnsDigestAndFinalizes
  intro s hactive
  exact ⟨_, exec_final_active s hactive, rfl, rfl, rfl, fun i k => extractLsb'_digest s.afterFinal.h, rfl, rfl, rfl, rfl, rfl,
    rfl, rfl, rfl⟩

end Sys2Proof.Machine

/-! SUPPORT. Any two ways to deliver the same message bytes leave the same state (R110). -/

namespace Sys2Proof.Machine

variable {s : State}

/-! ### The response register and `pc` are no input of an absorption -/

@[simp] theorem State.lessResponse_respond (s : State) (st : Status) (d : RspData) :
    (s.respond st d).lessResponse = s.lessResponse := rfl

theorem State.absorb_lessResponse (s : State) (x : Byte) : s.lessResponse.absorb x = (s.absorb x).lessResponse := by
  by_cases h : s.fill = 63
  · rw [s.absorb_of_eq x h, s.lessResponse.absorb_of_eq x h]; rfl
  · rw [s.absorb_of_ne x h, s.lessResponse.absorb_of_ne x h]; rfl

theorem State.absorbAll_lessResponse (s : State) (xs : List Byte) :
    s.lessResponse.absorbAll xs = (s.absorbAll xs).lessResponse := by
  induction xs generalizing s with
  | nil => rfl
  | cons x xs ih => rw [absorbAll_cons, absorb_lessResponse, ih, absorbAll_cons]

/-! ### What a delivery makes of the state -/

/-- What delivering the message bytes `xs` makes of a state: while Active they are absorbed, while Finalized they are refused (R105). -/
def State.deliver (s : State) (xs : List Byte) : State :=
  match s.fin with
  | .active => s.absorbAll xs
  | .finalized => s

theorem State.deliver_active (h : s.fin = .active) (xs : List Byte) : s.deliver xs = s.absorbAll xs := by
  rw [State.deliver, h]

theorem State.deliver_finalized (h : s.fin = .finalized) (xs : List Byte) : s.deliver xs = s := by
  rw [State.deliver, h]

theorem State.deliver_nil (s : State) : s.deliver [] = s := by
  cases h : s.fin with
  | active => rw [State.deliver_active h, absorbAll_nil]
  | finalized => rw [State.deliver_finalized h]

theorem State.deliver_append (s : State) (xs ys : List Byte) : s.deliver (xs ++ ys) = (s.deliver xs).deliver ys := by
  cases h : s.fin with
  | active =>
    have hxs : (s.absorbAll xs).fin = .active := (s.absorbAll_fin xs).trans h
    rw [State.deliver_active h, State.deliver_active h, State.deliver_active hxs, absorbAll_append]
  | finalized => rw [State.deliver_finalized h, State.deliver_finalized h, State.deliver_finalized h]

/-! ### The commands that deliver a message -/

/-- The commands with which R110 delivers a message: NOP, UPDZ, STAT and UPD. -/
def IsStreaming (i : Instr) : Prop := i = .nop ∨ i = .updz ∨ i = .stat ∨ ∃ bytes, i = .upd bytes ∧ i.wellFormed = true

/-- A streaming command delivers its message bytes and changes only `pc` and the response besides (R103, R105, R106, R108). -/
theorem exec_streaming (s : State) {i : Instr} (hi : IsStreaming i) :
    ∃ t, exec i s = .next t ∧ t.lessResponse = s.lessResponse.deliver (messageOf i) := by
  obtain rfl | rfl | rfl | ⟨bytes, rfl, -⟩ := hi
  · exact ⟨_, exec_nop s, s.lessResponse.deliver_nil.symm⟩
  · cases h : s.fin with
    | active => exact ⟨_, exec_updz_active s h, s.lessResponse.deliver_nil.symm⟩
    | finalized => exact ⟨_, exec_updz_finalized s h, s.lessResponse.deliver_nil.symm⟩
  · exact ⟨_, exec_stat s, s.lessResponse.deliver_nil.symm⟩
  · cases h : s.fin with
    | active =>
      refine ⟨_, exec_upd_active s bytes h, ?_⟩
      rw [State.lessResponse_respond, State.deliver_active (s := s.lessResponse) h, messageOf, State.absorbAll_lessResponse]
    | finalized => exact ⟨_, exec_upd_finalized s bytes h, (State.deliver_finalized (s := s.lessResponse) h bytes).symm⟩

/-- Streaming commands performed in order deliver the bytes they carry, in order. -/
theorem execAll_streaming (s : State) {is : List Instr} (his : ∀ i ∈ is, IsStreaming i) :
    ∃ t, execAll is s = .next t ∧ t.lessResponse = s.lessResponse.deliver (is.flatMap messageOf) := by
  induction is generalizing s with
  | nil => exact ⟨s, rfl, s.lessResponse.deliver_nil.symm⟩
  | cons i is ih =>
    rw [List.forall_mem_cons] at his
    obtain ⟨hi, his⟩ := his
    obtain ⟨u, hu, hless⟩ := exec_streaming s hi
    obtain ⟨t, ht, hrest⟩ := ih u his
    exact ⟨t, (execAll_cons s is hu).trans ht, by rw [hrest, hless, List.flatMap_cons, State.deliver_append]⟩

/-- Settles O44: what a sequence leaves, but for `pc` and the response, is what delivering its bytes makes of the state. -/
theorem streamingIsEquivalent : Obligations.StreamingIsEquivalent := by
  unfold Obligations.StreamingIsEquivalent
  intro is js s hstream hbytes
  obtain ⟨t, ht, htless⟩ := execAll_streaming s fun i hi => hstream i (List.mem_append_left js hi)
  obtain ⟨u, hu, huless⟩ := execAll_streaming s fun i hi => hstream i (List.mem_append_right is hi)
  exact ⟨t, u, ht, hu, by rw [htless, huless, hbytes]⟩

/-! ### Responses after INIT or hardware reset (R112) -/

/-- A served INIT leaves the same architectural state and response whatever the state before it (R104). -/
theorem sameReply_served_init {w : CmdWord} {v : Variant} (h : decode w = .ok (.init v)) (s t : State) :
    (served w s).SameReply (served w t) := by
  rw [served_of_command s _ ((command_of_ok s h).trans (exec_init s v)),
    served_of_command t _ ((command_of_ok t h).trans (exec_init t v))]
  exact (s.sameArch_initialise t v).sameReply_respond .ok rfl

/-- Hardware reset leaves the same architectural state whatever the state before it (R220). -/
theorem State.sameArch_hardwareReset (s t : State) : s.hardwareReset.SameArch t.hardwareReset :=
  ⟨rfl, rfl, rfl, rfl, rfl, fun _ ha => absurd ha (Nat.not_lt_zero _)⟩

/-- Settles O46: INIT and hardware reset fix the architectural state, on which alone the later responses depend. -/
theorem responsesDependOnCommandsOnly : Obligations.ResponsesDependOnCommandsOnly := by
  unfold Obligations.ResponsesDependOnCommandsOnly
  refine ⟨fun w v ws s t hinit => ?_, fun ws s t hs ht => ?_⟩
  · obtain ⟨harch, hstatus, hdata⟩ := sameReply_served_init hinit s t
    rw [responses, responses, hstatus, hdata, harch.responses_eq ws]
  · exact ⟨_, _, step_reset s hs, step_reset t ht, (State.sameArch_hardwareReset _ _).responses_eq ws⟩

end Sys2Proof.Machine

/-! SUPPORT. No stale byte decides a response (R148), the padded blocks byte by byte (R142, R143), and the number of blocks of a padded
message (R149). -/

namespace Sys2Proof.Machine

/-! ### Stale bytes (R148) -/

/-- Settles O45: every command answers alike on states that agree, because no operation of it reads a stale byte or the pipeline. -/
theorem staleStateNeverMatters : Obligations.StaleStateNeverMatters := by
  unfold Obligations.StaleStateNeverMatters
  intro w s t harch
  obtain ⟨s', hs⟩ := command_next s w
  obtain ⟨t', ht, harch', hstatus, hdata⟩ := harch.command hs
  exact ⟨s', t', hs, ht, harch', hstatus, hdata⟩

/-! ### The padded blocks from offset 0 on -/

/-- The single padded block (R142): pending bytes, terminator, zeros, length field. -/
theorem State.padSingle_eq_ofFn (s : State) (hfill : s.fill.toNat ≤ 55) :
    s.padSingle = Vector.ofFn fun i : Fin 64 =>
      if i.val < s.fill.toNat then s.readBuf i else if i.val = s.fill.toNat then 0x80#8
      else if i.val < 56 then 0#8 else s.bitlen.extractLsb' (8 * (63 - i.val)) 8 := by
  refine Vector.ext fun i hi => ?_
  rw [s.getElem_padSingle i hi, Vector.getElem_ofFn]
  dsimp only
  by_cases hlength : 56 ≤ i
  · rw [if_pos (by omega), if_neg (by omega), if_neg (by omega), if_neg (by omega), show 8 - 1 - (i - 56) = 63 - i by omega]
  rw [if_neg (by omega)]
  obtain hlt | heq | hgt := lt_trichotomy i s.fill.toNat
  · rw [if_neg (by omega), if_neg hlt.ne, if_pos hlt]
  · rw [if_neg (by omega), if_pos heq, if_neg heq.not_lt, if_pos heq]
    rfl
  · rw [if_pos (by omega), if_neg hgt.not_gt, if_neg hgt.ne', if_pos (by omega)]
    rfl

/-- The first block of the spillover case (R143): pending bytes, terminator, zeros. -/
theorem State.padSpill_eq_ofFn (s : State) :
    s.padSpill = Vector.ofFn fun i : Fin 64 =>
      if i.val < s.fill.toNat then s.readBuf i else if i.val = s.fill.toNat then 0x80#8 else 0#8 := by
  refine Vector.ext fun i hi => ?_
  rw [s.getElem_padSpill i hi, Vector.getElem_ofFn]
  dsimp only
  obtain hlt | heq | hgt := lt_trichotomy i s.fill.toNat
  · rw [if_neg (by omega), if_neg hlt.ne, if_pos hlt]
  · rw [if_neg (by omega), if_pos heq, if_neg heq.not_lt, if_pos heq]
    rfl
  · rw [if_pos (by omega), if_neg hgt.not_gt, if_neg hgt.ne']
    rfl

/-- The second block of the spillover case (R143): zeros, length field. -/
theorem State.padLength_eq_ofFn (s : State) :
    s.padLength = Vector.ofFn fun i : Fin 64 =>
      if i.val < 56 then 0#8 else s.bitlen.extractLsb' (8 * (63 - i.val)) 8 := by
  refine Vector.ext fun i hi => ?_
  rw [s.getElem_padLength i hi, Vector.getElem_ofFn]
  dsimp only
  by_cases hlength : 56 ≤ i
  · rw [if_pos (by omega), if_neg (by omega), show 8 - 1 - (i - 56) = 63 - i by omega]
  · rw [if_neg (by omega), if_pos (by omega), if_pos (by omega)]
    rfl

/-! ### FINAL's compressions (R142, R143, R145) -/

/-- Settles O21: with FILL at most 55 the one block FINAL compresses is the single padded block. -/
theorem finalPadsShortTailInOneBlock : Obligations.FinalPadsShortTailInOneBlock := by
  unfold Obligations.FinalPadsShortTailInOneBlock
  intro s hactive hfill
  refine ⟨_, exec_final_active s hactive, rfl, ?_⟩
  rw [State.respond_h, State.afterFinal_h, s.padBlocks_of_le hfill, List.foldl_cons, List.foldl_nil,
    s.padSingle_eq_ofFn hfill]

/-- Settles O22: with FILL at least 56 FINAL compresses the spill block and then the length block. -/
theorem finalPadsLongTailInTwoBlocks : Obligations.FinalPadsLongTailInTwoBlocks := by
  unfold Obligations.FinalPadsLongTailInTwoBlocks
  intro s hactive hfill
  refine ⟨_, exec_final_active s hactive, rfl, ?_⟩
  rw [State.respond_h, State.afterFinal_h, s.padBlocks_of_gt hfill, List.foldl_cons, List.foldl_cons, List.foldl_nil,
    s.padSpill_eq_ofFn, s.padLength_eq_ofFn]

/-! ### The padded message (R149) -/

/-- Settles O49: the length field ends the last block, which is one or two past the message's full blocks. -/
theorem paddedMessageIsWholeBlocks : Obligations.PaddedMessageIsWholeBlocks := by
  unfold Obligations.PaddedMessageIsWholeBlocks
  intro msg
  rw [length_padMessage]
  obtain hshort | hlong := le_or_gt (msg.length % 64) 55
  · rw [lengthOffset_of_le hshort, if_pos hshort]
    omega
  · rw [lengthOffset_of_gt hlong, if_neg (by omega)]
    omega

end Sys2Proof.Machine

/-! SUPPORT. The compression function: the schedule word by word and its sixteen-word window (R164 to R166, R176), rotation and the round
functions bit by bit (R161, R177), the registers step by step (R172 to R174), and the blocks on which the variants agree (R178). -/

namespace Sys2Proof.Machine

/-! ### The schedule word by word (R164 to R166) -/

/-- The sum that the expansion rules turn into W[t] (R165, R166). -/
def expandedSum (v : Variant) (blk : Block) (t : Nat) : Word :=
  (schedule v blk).getD (t - 3) 0 ^^^ (schedule v blk).getD (t - 8) 0 ^^^ (schedule v blk).getD (t - 14) 0
    ^^^ (schedule v blk).getD (t - 16) 0

@[simp] theorem length_schedule (v : Variant) (blk : Block) : (schedule v blk).length = 80 := by
  rw [schedule_eq, length_expandBlock]

/-- The first sixteen words are the block's (R164). -/
theorem schedule_getD_of_lt (v : Variant) (blk : Block) {t : Nat} (ht : t < 16) :
    (schedule v blk).getD t 0 = messageWord blk t := by
  rw [schedule_eq, expandBlock_getD _ _ 0 t (Nat.zero_le _) ht, expand, List.reverse_reverse,
    List.getD_eq_getElem _ _ (by simpa using ht), List.getElem_map, List.getElem_range]

/-- Among the words up to W[15 + n], newest first, W[t] is entry 15 + n - t. -/
theorem expand_getD_newest (v : Variant) (blk : Block) {n k t : Nat} (hn : n ≤ 64) (hk : t + k = 15 + n) :
    (expand (expandRule v) n ((List.range 16).map (messageWord blk)).reverse).getD k 0 = (schedule v blk).getD t 0 := by
  have hlen : (expand (expandRule v) n ((List.range 16).map (messageWord blk)).reverse).length = n + 16 := by simp
  rw [schedule_eq, expandBlock_getD _ blk n t hn (by omega), List.getD_reverse _ (by omega), hlen,
    show n + 16 - 1 - t = k by omega]

/-- Each later word is the variant's rule applied to the sum of four words before it (R165, R166). -/
theorem schedule_getD_expanded (v : Variant) (blk : Block) {t : Nat} (hlow : 16 ≤ t) (ht : t < 80) :
    (schedule v blk).getD t 0 = expandRule v (expandedSum v blk t) := by
  obtain ⟨n, rfl⟩ := Nat.exists_eq_add_of_le hlow
  have hn : n ≤ 64 := by omega
  rw [← expand_getD_newest v blk (n := n + 1) (k := 0) (by omega) (by omega), expand_succ, List.getD_cons_zero, nextWord,
    expand_getD_newest v blk (t := 16 + n - 3) hn (by omega), expand_getD_newest v blk (t := 16 + n - 8) hn (by omega),
    expand_getD_newest v blk (t := 16 + n - 14) hn (by omega), expand_getD_newest v blk (t := 16 + n - 16) hn (by omega),
    expandedSum]

/-- Settles O53: the schedule's length, its first words and its expansion rule, each from the lemma that says it. -/
theorem scheduleFollowsExpansionRule : Obligations.ScheduleFollowsExpansionRule := by
  unfold Obligations.ScheduleFollowsExpansionRule
  refine fun v blk => ⟨length_schedule v blk, fun i hi => schedule_getD_of_lt v blk hi, fun t hlow ht => ?_⟩
  refine (schedule_getD_expanded v blk hlow ht).trans ?_
  cases v <;> rfl

/-! ### The sixteen-word window (R176) -/

/-- A slot of the window, read with a default or without. -/
theorem getD_slot (w : Vector Word 16) {j : Nat} (hj : j < 16) : w.getD j 0 = w[j] := by
  unfold Vector.getD
  simp [hj]

/-- A window step puts the new word into slot t mod 16. -/
theorem windowStep_getD_same (v : Variant) (w : Vector Word 16) (t : Nat) :
    (windowStep v w t).getD (t % 16) 0 = expandRule v (w.getD ((t - 3) % 16) 0 ^^^ w.getD ((t - 8) % 16) 0
      ^^^ w.getD ((t - 14) % 16) 0 ^^^ w.getD (t % 16) 0) := by
  rw [getD_slot _ (Nat.mod_lt t (by decide)), windowStep, Vector.getElem_set!_self]

/-- A window step leaves the other slots alone. -/
theorem windowStep_getD_other (v : Variant) (w : Vector Word 16) {t j : Nat} (hj : j < 16) (hne : t % 16 ≠ j) :
    (windowStep v w t).getD j 0 = w.getD j 0 := by
  rw [getD_slot _ hj, getD_slot _ hj, windowStep, Vector.getElem_set!_ne hj hne]

/-- The invariant of the window: after n steps its slots hold W[n], …, W[n + 15], each at its index mod 16. -/
theorem window_getD (v : Variant) (blk : Block) {n : Nat} (hn : n ≤ 64) {t : Nat} (hlow : n ≤ t) (ht : t < 16 + n) :
    (window v blk n).getD (t % 16) 0 = (schedule v blk).getD t 0 := by
  induction n generalizing t with
  | zero =>
    rw [schedule_getD_of_lt v blk ht, Nat.mod_eq_of_lt ht, getD_slot _ ht, window, Vector.getElem_ofFn]
  | succ n ih =>
    have hold {u : Nat} (hu : n ≤ u) (hu' : u < 16 + n) : (window v blk n).getD (u % 16) 0 = (schedule v blk).getD u 0 :=
      ih (by omega) hu hu'
    rw [window]
    obtain rfl | hne := eq_or_ne t (16 + n)
    · have hoverwritten : (window v blk n).getD ((16 + n) % 16) 0 = (schedule v blk).getD (16 + n - 16) 0 := by
        rw [Nat.add_mod_left, Nat.add_sub_cancel_left, hold le_rfl (by omega)]
      rw [windowStep_getD_same, schedule_getD_expanded v blk (by omega) (by omega), expandedSum, hoverwritten,
        hold (by omega) (by omega), hold (by omega) (by omega), hold (by omega) (by omega)]
    · rw [windowStep_getD_other v _ (Nat.mod_lt t (by decide)) (by omega), hold (by omega) (by omega)]

/-- Settles O55: slot t mod 16 holds W[t] once t - 15 words are computed, by the window's invariant. -/
theorem windowGivesSameSchedule : Obligations.WindowGivesSameSchedule := by
  unfold Obligations.WindowGivesSameSchedule
  intro v blk t ht
  exact window_getD v blk (by omega) (by omega) (by omega)

/-! ### Rotation and the round functions bit by bit (R161, R168 to R170, R177) -/

/-- Bits below n come from the right shift of the definition, the others from the left shift (R161). -/
theorem getLsbD_rotl (x : Word) {n i : Nat} (hpos : 0 < n) (hn : n < 32) (hi : i < 32) :
    (rotl x n).getLsbD i = x.getLsbD ((i + 32 - n) % 32) := by
  rw [rotl, BitVec.getLsbD_or, BitVec.getLsbD_shiftLeft, BitVec.getLsbD_ushiftRight]
  obtain hlt | hge := lt_or_ge i n
  · rw [show (i + 32 - n) % 32 = 32 - n + i by omega]
    simp [hlt]
  · rw [show (i + 32 - n) % 32 = i - n by omega, BitVec.getLsbD_of_ge x (32 - n + i) (by omega)]
    simp [hi, hge]

/-- Settles O51: the bit rule, and the rotation right by 2, which is the same two shifts. -/
theorem rotateLeftMovesBits : Obligations.RotateLeftMovesBits := by
  unfold Obligations.RotateLeftMovesBits
  exact fun x => ⟨fun n i hpos hn hi => getLsbD_rotl x hpos hn hi, BitVec.or_comm _ _⟩

/-- Choose takes c where b is 1 and d where b is 0 (R168). -/
theorem getLsbD_ch (b c d : Word) {i : Nat} (hi : i < 32) :
    (ch b c d).getLsbD i = if b.getLsbD i then c.getLsbD i else d.getLsbD i := by
  rw [ch, BitVec.getLsbD_xor, BitVec.getLsbD_and, BitVec.getLsbD_and, BitVec.getLsbD_not, decide_eq_true hi]
  cases b.getLsbD i <;> simp

/-- Majority is the value that at least two of the three bits hold (R170). -/
theorem getLsbD_maj (b c d : Word) (i : Nat) :
    (maj b c d).getLsbD i = decide (2 ≤ (b.getLsbD i).toNat + (c.getLsbD i).toNat + (d.getLsbD i).toNat) := by
  rw [maj, BitVec.getLsbD_xor, BitVec.getLsbD_xor, BitVec.getLsbD_and, BitVec.getLsbD_and, BitVec.getLsbD_and]
  generalize b.getLsbD i = p, c.getLsbD i = q, d.getLsbD i = r
  revert p q r
  decide

/-- The two terms of choose have no bit in common, so that OR joins them as well (R177). -/
theorem ch_eq_or (b c d : Word) : ch b c d = (b &&& c) ||| (~~~b &&& d) := by
  refine BitVec.eq_of_getLsbD_eq fun i hi => ?_
  rw [getLsbD_ch b c d hi, BitVec.getLsbD_or, BitVec.getLsbD_and, BitVec.getLsbD_and, BitVec.getLsbD_not, decide_eq_true hi]
  cases b.getLsbD i <;> simp

/-- Majority with OR, by the truth table of one bit (R177). -/
theorem maj_eq_or (b c d : Word) : maj b c d = (b &&& c) ||| (b &&& d) ||| (c &&& d) := by
  refine BitVec.eq_of_getLsbD_eq fun i _ => ?_
  rw [getLsbD_maj, BitVec.getLsbD_or, BitVec.getLsbD_or, BitVec.getLsbD_and, BitVec.getLsbD_and, BitVec.getLsbD_and]
  generalize b.getLsbD i = p, c.getLsbD i = q, d.getLsbD i = r
  revert p q r
  decide

/-- Settles O52: the forms with OR and the bitwise readings, each from the lemma that says it. -/
theorem roundFunctionsBitByBit : Obligations.RoundFunctionsBitByBit := by
  unfold Obligations.RoundFunctionsBitByBit
  refine fun b c d => ⟨ch_eq_or b c d, maj_eq_or b c d, fun i hi => ⟨getLsbD_ch b c d hi, getLsbD_maj b c d i, ?_⟩⟩
  rw [parity, BitVec.getLsbD_xor, BitVec.getLsbD_xor]

/-! ### The working registers step by step (R172 to R174) -/

/-- The working registers before step t of a compression (R172, R173). -/
def workingBefore (h : Chain) (blk : Block) (v : Variant) (t : Nat) : Working := rounds 0 ((schedule v blk).take t) (seed h)

/-- Step t takes the registers before it to the registers before step t + 1, with W[t] of the schedule (R173). -/
theorem workingBefore_succ (h : Chain) (blk : Block) (v : Variant) {t : Nat} (ht : t < 80) :
    workingBefore h blk v (t + 1) = roundStep t ((schedule v blk).getD t 0) (workingBefore h blk v t) := by
  have hlt : t < (schedule v blk).length := by rwa [length_schedule]
  rw [workingBefore, workingBefore, ← List.take_append_getElem hlt, rounds_append, rounds_cons, rounds_nil,
    List.length_take_of_le hlt.le, Nat.zero_add, List.getD_eq_getElem _ _ hlt]

/-- The registers after step 79, added into the chaining value, are the compression (R174). -/
theorem compress_eq_feedForward (h : Chain) (blk : Block) (v : Variant) :
    compress h blk v = feedForward h (workingBefore h blk v 80) := by
  rw [compress, workingBefore, List.take_of_length_le (length_schedule v blk).le]

/-- Settles O54: the sequence is that of the working registers before each step. -/
theorem compressIsEightyStepsAndFeedForward : Obligations.CompressIsEightyStepsAndFeedForward := by
  unfold Obligations.CompressIsEightyStepsAndFeedForward
  exact fun h blk v => ⟨workingBefore h blk v, rfl, fun t ht => workingBefore_succ h blk v ht, compress_eq_feedForward h blk v⟩

/-! ### Words that rotation leaves alone (R178) -/

/-- All bits of the word are alike: it is 0 or 0xFFFFFFFF. -/
def AllBitsAlike (x : Word) : Prop := x = 0x00000000#32 ∨ x = 0xFFFFFFFF#32

theorem AllBitsAlike.xor {x y : Word} (hx : AllBitsAlike x) (hy : AllBitsAlike y) : AllBitsAlike (x ^^^ y) := by
  obtain rfl | rfl := hx <;> obtain rfl | rfl := hy <;> simp [AllBitsAlike]

theorem allBitsAlike_of_getLsbD {x : Word} (h : ∀ i, i < 32 → x.getLsbD i = x.getLsbD 0) : AllBitsAlike x := by
  cases hbit : x.getLsbD 0 with
  | false => exact .inl (BitVec.eq_of_getLsbD_eq fun i hi => by rw [h i hi, hbit, BitVec.getLsbD_zero])
  | true =>
    refine .inr (BitVec.eq_of_getLsbD_eq fun i hi => ?_)
    rw [h i hi, hbit, show 0xFFFFFFFF#32 = BitVec.allOnes 32 from rfl, BitVec.getLsbD_allOnes, decide_eq_true hi]

/-- Rotation by one place leaves exactly the words alone whose bits are all alike: each bit equals the bit below it. -/
theorem rotl_one_eq_self_iff (x : Word) : rotl x 1 = x ↔ AllBitsAlike x := by
  constructor
  · intro h
    refine allBitsAlike_of_getLsbD fun i hi => ?_
    induction i with
    | zero => rfl
    | succ i ih =>
      rw [← ih (by omega), ← h, getLsbD_rotl x (by decide) (by decide) hi, h]
      congr 1
      omega
  · rintro (rfl | rfl) <;> decide

/-- Neither rule changes a word whose bits are all alike. -/
theorem AllBitsAlike.expandRule_eq {x : Word} (hx : AllBitsAlike x) (v : Variant) : expandRule v x = x := by
  cases v with
  | sha1 => exact (rotl_one_eq_self_iff x).mpr hx
  | sha0 => rfl

/-! ### Blocks on which the variants agree (R178) -/

section Agreement

variable {v : Variant} {blk : Block}

/-- If no rule changes a sum of the one variant's schedule, then every variant has that schedule. -/
theorem schedule_eq_of_allBitsAlike (hsum : ∀ t, 16 ≤ t → t < 80 → AllBitsAlike (expandedSum v blk t)) (u : Variant) :
    schedule u blk = schedule v blk := by
  have hword (t : Nat) : t < 80 → (schedule u blk).getD t 0 = (schedule v blk).getD t 0 := by
    induction t using Nat.strong_induction_on with
    | h t ih =>
      intro ht
      obtain hlow | hlow := lt_or_ge t 16
      · rw [schedule_getD_of_lt u blk hlow, schedule_getD_of_lt v blk hlow]
      have hsame : expandedSum u blk t = expandedSum v blk t := by
        rw [expandedSum, ih _ (by omega) (by omega), ih _ (by omega) (by omega), ih _ (by omega) (by omega),
          ih _ (by omega) (by omega), expandedSum]
      rw [schedule_getD_expanded u blk hlow ht, schedule_getD_expanded v blk hlow ht, hsame,
        (hsum t hlow ht).expandRule_eq, (hsum t hlow ht).expandRule_eq]
  refine List.ext_getElem (by simp) fun t hu hv => ?_
  rw [← List.getD_eq_getElem _ 0 hu, ← List.getD_eq_getElem _ 0 hv]
  exact hword t (by simpa using hu)

/-- Then the variants compress alike, too. -/
theorem variants_agree_of_allBitsAlike (hsum : ∀ t, 16 ≤ t → t < 80 → AllBitsAlike (expandedSum v blk t)) (h : Chain) :
    schedule .sha1 blk = schedule .sha0 blk ∧ compress h blk .sha1 = compress h blk .sha0 := by
  have hschedule : schedule .sha1 blk = schedule .sha0 blk :=
    (schedule_eq_of_allBitsAlike hsum .sha1).trans (schedule_eq_of_allBitsAlike hsum .sha0).symm
  exact ⟨hschedule, by rw [compress, compress, hschedule]⟩

/-- Exclusive or leads from words whose bits are all alike to such words only. -/
theorem expandedSum_allBitsAlike {t : Nat} (hlow : 16 ≤ t) (hword : ∀ u, u < t → AllBitsAlike ((schedule v blk).getD u 0)) :
    AllBitsAlike (expandedSum v blk t) :=
  (((hword _ (by omega)).xor (hword _ (by omega))).xor (hword _ (by omega))).xor (hword _ (by omega))

/-- A block of words 0 and 0xFFFFFFFF expands into such words only, by induction on t. -/
theorem schedule_allBitsAlike (hmsg : ∀ i, i < 16 → AllBitsAlike (messageWord blk i)) {t : Nat} (ht : t < 80) :
    AllBitsAlike ((schedule v blk).getD t 0) := by
  induction t using Nat.strong_induction_on with
  | h t ih =>
    obtain hlow | hlow := lt_or_ge t 16
    · rw [schedule_getD_of_lt v blk hlow]
      exact hmsg t hlow
    have hsum : AllBitsAlike (expandedSum v blk t) := expandedSum_allBitsAlike hlow fun u hu => ih u hu (hu.trans ht)
    rwa [schedule_getD_expanded v blk hlow ht, hsum.expandRule_eq]

end Agreement

/-! ### Blocks of sixteen equal words (R178) -/

/-- The message words of a block of 64 equal bytes. -/
theorem messageWord_replicate (b : Byte) {i : Nat} (hi : i < 16) :
    messageWord (Vector.replicate 64 b) i = b ++ b ++ b ++ b := by
  have hbyte {j : Nat} (hj : j < 64) : (Vector.replicate 64 b : Block).getD j 0 = b := by
    rw [getD_eq_getElem _ j hj, Vector.getElem_replicate]
  rw [messageWord, hbyte (by omega), hbyte (by omega), hbyte (by omega), hbyte (by omega), beWord]

/-- The variants agree on a block of 64 equal bytes whose bits are all alike: 64 bytes 0x00 or 64 bytes 0xFF. -/
theorem variants_agree_on_replicate (h : Chain) {b : Byte} (hb : AllBitsAlike (b ++ b ++ b ++ b)) :
    compress h (Vector.replicate 64 b) .sha1 = compress h (Vector.replicate 64 b) .sha0 := by
  have hmsg (i : Nat) (hi : i < 16) : AllBitsAlike (messageWord (Vector.replicate 64 b) i) := by
    rwa [messageWord_replicate b hi]
  have hsum (t : Nat) (hlow : 16 ≤ t) (ht : t < 80) : AllBitsAlike (expandedSum .sha1 (Vector.replicate 64 b) t) :=
    expandedSum_allBitsAlike hlow fun u hu => schedule_allBitsAlike hmsg (hu.trans ht)
  exact (variants_agree_of_allBitsAlike hsum h).2

section EqualWords

variable {blk : Block} {w : Word} (hmsg : ∀ i, i < 16 → messageWord blk i = w)
include hmsg

theorem schedule_getD_eq_word (v : Variant) {t : Nat} (ht : t < 16) : (schedule v blk).getD t 0 = w := by
  rw [schedule_getD_of_lt v blk ht, hmsg t ht]

/-- W[16], W[17] and W[18] of 16 equal words are sums of four equal words, so they are 0. -/
theorem schedule_getD_of_equal_words (v : Variant) {t : Nat} (hlow : 16 ≤ t) (ht : t < 19) :
    (schedule v blk).getD t 0 = 0#32 := by
  have hword {u : Nat} (hu : u < 16) : (schedule v blk).getD u 0 = w := schedule_getD_eq_word hmsg v hu
  rw [schedule_getD_expanded v blk hlow (by omega), expandedSum, hword (by omega), hword (by omega), hword (by omega),
    hword (by omega), BitVec.xor_self, BitVec.zero_xor, BitVec.xor_self]
  exact AllBitsAlike.expandRule_eq (.inl rfl) v

/-- W[19] of 16 equal words w is the variant's rule applied to 0 XOR w XOR w XOR w = w. -/
theorem schedule_getD_19_of_equal_words (v : Variant) : (schedule v blk).getD 19 0 = expandRule v w := by
  have hword {u : Nat} (hu : u < 16) : (schedule v blk).getD u 0 = w := schedule_getD_eq_word hmsg v hu
  rw [schedule_getD_expanded v blk (by decide) (by decide), expandedSum,
    schedule_getD_of_equal_words hmsg v (by decide) (by decide), hword (by decide), hword (by decide), hword (by decide),
    BitVec.zero_xor, BitVec.xor_self, BitVec.zero_xor]

end EqualWords

/-- Settles O56: rotation leaves alone exactly the words 0 and 0xFFFFFFFF, so the variants agree while the sums are such words, and part
at W[19] for 16 copies of another one. -/
theorem variantsAgreeOnFixedPointBlocks : Obligations.VariantsAgreeOnFixedPointBlocks := by
  unfold Obligations.VariantsAgreeOnFixedPointBlocks
  refine ⟨fun v blk h hsum => variants_agree_of_allBitsAlike (v := v) hsum h,
    fun h => ⟨variants_agree_on_replicate h (.inl (by decide)), variants_agree_on_replicate h (.inr (by decide))⟩,
    fun blk w hmsg hzero hones => ⟨schedule_getD_19_of_equal_words hmsg .sha0, fun h => ?_⟩⟩
  rw [schedule_getD_19_of_equal_words hmsg] at h
  exact ((rotl_one_eq_self_iff w).mp h).elim hzero hones

end Sys2Proof.Machine

/-! SUPPORT. The errors: which words are illegal, which commands the lifecycle bit guards, and what a failed command leaves alone
(R200 to R206, R216). -/

namespace Sys2Proof

open Sys2Proof.Machine Sys2Proof.Laws.EncodedFields

theorem toNat_opcode_lt (i : Instr) : (opcode i).toNat < 6 := by
  cases i with
  | nop | init | upd | updz | final | stat => simp [opcode]

/-- The illegal words, by their header (R77 to R79). -/
theorem decode_word_error_iff (op : BitVec 4) (z n : BitVec 2) (data : BitVec 32) :
    (∃ e, decode (op ++ z ++ n ++ data) = .error e) ↔ z ≠ 0 ∨ 6 ≤ op.toNat ∨ (op ≠ 2 ∧ n ≠ 0) := by
  constructor
  · rintro ⟨e, he⟩
    have hcases := (decode_word op z n data).symm.trans he
    split_ifs at hcases with hz h2 h6 hn <;> cases hcases
    · exact .inl hz
    · exact .inr (.inl h6)
    · exact .inr (.inr ⟨h2, hn⟩)
  · rintro (hz | h6 | ⟨h2, hn⟩)
    · exact ⟨_, (decode_word op z n data).trans (if_pos hz)⟩
    · cases hd : decode (op ++ z ++ n ++ data) with
      | error e => exact ⟨e, rfl⟩
      | ok i =>
        obtain ⟨-, hop, -, -⟩ := fields_of_decode_ok hd
        rw [cmdOp_word] at hop
        rw [hop] at h6
        exact absurd (toNat_opcode_lt i) (Nat.not_lt.2 h6)
    · exact decode_word_error data h2 (.inr hn)

end Sys2Proof

namespace Sys2Proof.Machine

open Sys2Proof.Laws.EncodedFields (opcode)

variable {s t : State}

/-- The commands that test FIN fail on a Finalized engine (R101, R201). -/
theorem exec_guarded_finalized (hf : s.fin = .finalized) {i : Instr} (hi : i = .updz ∨ i = .final ∨ ∃ bytes, i = .upd bytes) :
    exec i s = .next (s.raise .efin) := by
  obtain rfl | rfl | ⟨bytes, rfl⟩ := hi
  · exact exec_updz_finalized s hf
  · exact exec_final_finalized s hf
  · exact exec_upd_finalized s bytes hf

/-- Settles O24: the guarded commands raise EFIN, and the other three are answered with OK whatever FIN is. -/
theorem finalizedEngineRaisesEfin : Obligations.FinalizedEngineRaisesEfin := by
  unfold Obligations.FinalizedEngineRaisesEfin
  refine ⟨fun s i hf hi => exec_guarded_finalized hf hi, fun s i hi => ?_⟩
  obtain rfl | rfl | ⟨v, rfl⟩ := hi
  · exact ⟨_, exec_nop s, rfl⟩
  · exact ⟨_, exec_stat s, rfl⟩
  · exact ⟨_, exec_init s v, rfl⟩

/-- Settles O25: such a word decodes as illegal, and an illegal word raises EILL before FIN is looked at. -/
theorem illegalWordRaisesEill : Obligations.IllegalWordRaisesEill := by
  unfold Obligations.IllegalWordRaisesEill
  intro op z n data s hillegal
  obtain ⟨e, he⟩ := (decode_word_error_iff op z n data).2 hillegal
  exact ⟨⟨e, he⟩, command_of_error s he⟩

/-- The status of a command of the opcode table: EFIN exactly for opcodes 2 to 4 while Finalized (R204). -/
theorem exec_rspStatus {i : Instr} (h : exec i s = .next t) :
    t.rspStatus = if (opcode i = 2 ∨ opcode i = 3 ∨ opcode i = 4) ∧ s.fin = .finalized then 1 else 0 := by
  obtain ⟨rfl, rfl⟩ | ⟨v, rfl, rfl⟩ | ⟨rfl, rfl⟩ | ⟨hf, rfl, rfl⟩ | ⟨hf, bytes, rfl, rfl⟩ | ⟨hf, rfl, rfl⟩ |
    ⟨hf, rfl | rfl | ⟨bytes, rfl⟩, rfl⟩ := exec_cases s t h
  iterate 3 exact (if_neg fun hc => absurd hc.1 (by simp [opcode])).symm
  iterate 3 exact (if_neg fun hc => absurd (hf.symm.trans hc.2) (by decide)).symm
  · exact (if_pos ⟨.inr (.inl rfl), hf⟩).symm
  · exact (if_pos ⟨.inr (.inr rfl), hf⟩).symm
  · exact (if_pos ⟨.inl rfl, hf⟩).symm

/-- Settles O26: an illegal word raises EILL, and a legal one has the status of the command it decodes to. -/
theorem statusOfEveryCommandWord : Obligations.StatusOfEveryCommandWord := by
  unfold Obligations.StatusOfEveryCommandWord
  intro op z n data s
  obtain ⟨t, ht⟩ := command_next s (op ++ z ++ n ++ data)
  obtain ⟨-, -, -, -, hpending⟩ := command_frame s t ht
  refine ⟨t, ht, hpending, ?_⟩
  obtain ⟨e, hd, rfl⟩ | ⟨i, hd, hx⟩ := command_cases s t ht
  · rw [if_pos ((decode_word_error_iff op z n data).1 ⟨e, hd⟩)]
    rfl
  · have hlegal : ¬∃ e, decode (op ++ z ++ n ++ data) = .error e := by
      rintro ⟨e, he⟩
      cases hd.symm.trans he
    obtain ⟨-, hop, -, -⟩ := fields_of_decode_ok hd
    rw [cmdOp_word] at hop
    rw [if_neg (mt (decode_word_error_iff op z n data).2 hlegal), hop]
    exact exec_rspStatus hx

/-- The only error of a command of the opcode table is EFIN, raised before any state is touched (R101, R206). -/
theorem eq_raise_of_exec_error {i : Instr} (h : exec i s = .next t) (herr : t.rspStatus ≠ 0) : t = s.raise .efin := by
  obtain ⟨-, rfl⟩ | ⟨v, -, rfl⟩ | ⟨-, rfl⟩ | ⟨-, -, rfl⟩ | ⟨-, bytes, -, rfl⟩ | ⟨-, -, rfl⟩ | ⟨-, -, rfl⟩ := exec_cases s t h
  iterate 6 exact absurd rfl herr
  · rfl

/-- Settles O27: an error is raised by the decoder or by the lifecycle guard, and raising it writes the response and `pc` only. -/
theorem errorChangesNoState : Obligations.ErrorChangesNoState := by
  unfold Obligations.ErrorChangesNoState
  intro w s t h herr
  obtain ⟨e, -, rfl⟩ | ⟨i, -, hx⟩ := command_cases s t h
  · rfl
  · rw [eq_raise_of_exec_error hx herr]
    rfl

/-! ### The Finalized engine until INIT (R216) -/

/-- A word other than INIT only makes a Finalized engine answer. -/
theorem command_finalized (hf : s.fin = .finalized) {w : CmdWord} (hw : ∀ v, decode w ≠ .ok (.init v)) :
    ∃ st d, command w s = .next (s.respond st d) ∧ finalizedReply s w = ⟨st.code, d⟩ := by
  unfold finalizedReply
  cases hd : decode w with
  | error e => exact ⟨.eill, 0, command_of_error s hd, rfl⟩
  | ok i =>
    rw [command_of_ok s hd]
    cases i with
    | nop => exact ⟨.ok, 0, exec_nop s, rfl⟩
    | init v => exact absurd hd (hw v)
    | upd bytes => exact ⟨.efin, 0, exec_upd_finalized s bytes hf, rfl⟩
    | updz => exact ⟨.efin, 0, exec_updz_finalized s hf, rfl⟩
    | final => exact ⟨.efin, 0, exec_final_finalized s hf, rfl⟩
    | stat => exact ⟨.ok, _, exec_stat s, rfl⟩

@[simp] theorem finalizedReply_respond (s : State) (st : Status) (d : RspData) :
    finalizedReply (s.respond st d) = finalizedReply s := rfl

/-- Settles O31, by induction on the words: each answer leaves the engine Finalized, with the same answers to give. -/
theorem finalizeGuardPersistsUntilInit : Obligations.FinalizeGuardPersistsUntilInit := by
  unfold Obligations.FinalizeGuardPersistsUntilInit
  intro ws
  induction ws with
  | nil => exact fun _ _ _ => rfl
  | cons w ws ih =>
    intro s hf hws
    obtain ⟨st, d, hx, hreply⟩ := command_finalized hf (hws w List.mem_cons_self)
    have hrest := ih (s.respond st d) hf fun u hu => hws u (List.mem_cons_of_mem w hu)
    rw [responses, served_of_command s _ hx, hrest, finalizedReply_respond, List.map_cons, hreply]
    rfl

/-! ### The idle engine (R215, R223) -/

/-- With no response held and no word offered the edge only passes. -/
theorem step_of_idle (hr : s.pinsNow.rst = false) (hp : s.rspPending = false) (ho : s.offered = none) :
    step s = .next s.nextPins := by
  unfold step edge
  rw [hr, State.rspValid, hp, ho, Bool.and_false, Bool.false_and, if_neg Bool.false_ne_true, if_neg Bool.false_ne_true]

/-- Settles O41: the state after an idle edge is `nextPins`, which uses up the host's pin levels of this edge. -/
theorem engineWaitsForACommand : Obligations.EngineWaitsForACommand := by
  unfold Obligations.EngineWaitsForACommand
  exact fun s => step_of_idle

end Sys2Proof.Machine

/-! SUPPORT. Hardware reset: the closed ports, the architectural state it leaves, and the message hashed after it with no INIT; and every
edge ends in a next state (R220 to R225, R230). -/

namespace Sys2Proof.Machine

variable {s t : State} {v : Variant} {msg : List Byte}

/-! ### The reset edge (R220) -/

theorem State.cmdReady_of_rst (h : s.pinsNow.rst = true) : s.cmdReady = false := by
  rw [State.cmdReady, h]; rfl

theorem State.rspValid_of_rst (h : s.pinsNow.rst = true) : s.rspValid = false := by
  rw [State.rspValid, h]; rfl

/-- Hardware reset and a performed INIT sha1 leave the same architectural state, whatever the states before them (R222). -/
theorem State.sameArch_hardwareReset_init (s u : State) (st : Status) (d : RspData) :
    s.hardwareReset.SameArch ((u.initialise .sha1).respond st d) :=
  ⟨rfl, rfl, rfl, rfl, rfl, fun _ ha => absurd ha (Nat.not_lt_zero _)⟩

/-- Hardware reset starts an empty SHA-1 message (R224). -/
theorem State.absorbed_hardwareReset (s : State) : s.hardwareReset.Absorbed .sha1 [] :=
  ⟨rfl, rfl, rfl, rfl, rfl, fun _ hk => absurd hk (Nat.not_lt_zero _)⟩

/-! ### Responses to encoded instructions -/

/-- The first response to offered encodings is the one the first instruction leaves. -/
theorem responses_encode_cons {i : Instr} (hi : i.wellFormed = true) (hx : exec i s = .next t) (ws : List CmdWord) :
    responses (encode i :: ws) s = ⟨t.rspStatus, t.rspData⟩ :: responses ws t := by
  rw [responses, served_of_command s t ((command_of_ok s (decode_encode hi)).trans hx)]

/-- Update commands and a FINAL after them answer OK, the last with the digest of the message absorbed by then (R105 to R107). -/
theorem State.Absorbed.responses_updates_final (h : s.Absorbed v msg) {is : List Instr} (his : ∀ i ∈ is, IsUpdate i) :
    responses ((is ++ [Instr.final]).map encode) s =
      List.replicate is.length ⟨0, 0⟩ ++ [⟨0, digest (hashMessage v (msg ++ is.flatMap messageOf))⟩] := by
  induction is generalizing s msg with
  | nil =>
    obtain ⟨t, hx, hst, hdata⟩ := h.exec_final
    have hlast : responses [encode .final] s = [⟨t.rspStatus, t.rspData⟩] := responses_encode_cons rfl hx []
    rw [List.nil_append, List.map_singleton, hlast, hst, hdata, List.flatMap_nil, List.append_nil]
    rfl
  | cons i is ih =>
    rw [List.forall_mem_cons] at his
    obtain ⟨hi, his⟩ := his
    obtain ⟨t, hx, habs, hst, hdata⟩ := h.exec_update hi
    rw [List.cons_append, List.map_cons, responses_encode_cons hi.wellFormed hx, hst, hdata, ih habs his,
      List.flatMap_cons, List.append_assoc, List.length_cons, List.replicate_succ, List.cons_append]

/-- Settles O48: hardware reset leaves an engine that has absorbed the empty SHA-1 message, which the pieces of `UPDATE msg` extend to
`msg` and FINAL completes. -/
theorem hardwareResetIsReadyToHashSha1 : Obligations.HardwareResetIsReadyToHashSha1 := by
  unfold Obligations.HardwareResetIsReadyToHashSha1
  intro msg s hrst
  refine ⟨_, step_reset s hrst, ?_⟩
  have hreplies := s.nextPins.absorbed_hardwareReset.responses_updates_final
    fun _ => isUpdate_of_mem_updateProgram (msg := msg)
  rwa [List.nil_append, flatMap_messageOf_updateProgram] at hreplies

/-- Settles O42: the edge is a reset, a response held or taken, a command performed or an idle edge, and each has a next state. -/
theorem everyStepCompletes : Obligations.EveryStepCompletes := by
  unfold Obligations.EveryStepCompletes
  intro s
  cases hrst : s.pinsNow.rst with
  | true => exact ⟨_, step_reset s hrst⟩
  | false =>
    cases hp : s.rspPending with
    | true =>
      cases hready : s.pinsNow.rspReady with
      | true => exact ⟨_, step_of_held s hrst hp hready⟩
      | false => exact ⟨_, step_of_held_not_ready hrst hp hready⟩
    | false =>
      cases ho : s.offered with
      | none => exact ⟨_, step_of_idle hrst hp ho⟩
      | some w =>
        rw [step_of_offered s hrst hp ho]
        exact command_next s.nextPins.nextCmd w

/-- Settles O3: `rst` closes both ports, and the fields of the state after the edge are those of `hardwareReset`. -/
theorem hardwareResetInitialisesEngine : Obligations.HardwareResetInitialisesEngine := by
  unfold Obligations.HardwareResetInitialisesEngine
  intro s hrst
  exact ⟨State.cmdReady_of_rst hrst, State.rspValid_of_rst hrst, _, step_reset s hrst,
    State.hardwareReset_h _, State.hardwareReset_bitlen _, State.hardwareReset_fill _, State.hardwareReset_fin _,
    State.hardwareReset_var _, State.hardwareReset_rspPending _, State.hardwareReset_pc _,
    State.hardwareReset_cmds _, State.hardwareReset_pins _, State.hardwareReset_taken _⟩

/-- Settles O5: both load the constants of R21 and leave nothing pending in BUF; only INIT makes a response. -/
theorem hardwareResetAgreesWithInitSha1 : Obligations.HardwareResetAgreesWithInitSha1 := by
  unfold Obligations.HardwareResetAgreesWithInitSha1
  intro s u hrst
  exact ⟨_, _, step_reset s hrst, exec_init u .sha1, State.sameArch_hardwareReset_init _ _ _ _, rfl, rfl, rfl⟩

/-- Settles O6: the architectural state that a hardware reset or an INIT leaves does not depend on the state before it. -/
theorem repeatedResetLeavesSameState : Obligations.RepeatedResetLeavesSameState := by
  unfold Obligations.RepeatedResetLeavesSameState
  refine ⟨fun s hrst => ?_, fun v s => ?_, fun s hrst => ?_⟩
  · exact ⟨_, step_reset s hrst, fun hagain => ⟨_, step_reset _ hagain, State.sameArch_hardwareReset _ _⟩⟩
  · exact ⟨_, _, exec_init s v, exec_init _ v, (State.sameArch_initialise _ s v).respond .ok .ok 0 0⟩
  · exact ⟨_, _, step_reset s hrst, exec_init _ .sha1, (State.sameArch_hardwareReset_init _ _ _ _).symm⟩

end Sys2Proof.Machine
